-- ==== Sys2Proof/Word.lean ====
section
/-! DEFINITION. The machine's word types (spec/00_scope.md R8, R11): registers, addresses and instruction
words are 32-bit values, memory is made of bytes, and a register field of an instruction has four bits. -/

namespace Sys2Proof

/-- A register value, an address or an instruction word (R11: `bits32`). -/
abbrev Word := BitVec 32

/-- The smallest addressable unit (R34). -/
abbrev Byte := BitVec 8

/-- A register number, as a four-bit field of an instruction names it (R15: `r0` to `r15`). -/
abbrev RegNum := BitVec 4

/-- `r13`, the stack pointer by convention only (R15, R16). -/
abbrev RegNum.sp : RegNum := 13#4

/-- `r14`, the link register a taken `bl` writes (R15, R16). -/
abbrev RegNum.lr : RegNum := 14#4

/-- `r15`, the program counter (R15, R17). -/
abbrev RegNum.pc : RegNum := 15#4

end Sys2Proof
end

