-- ==== Sys2Proof/Config.lean ====
section
/-! DEFINITION. The parameters of the reference session, the one session that `Machine.State.reset` is.
The spec leaves them as inputs of construction (spec/00_scope.md R9); the values are those of its own examples
where it gives one (R10), and the model's choice otherwise (log 2, log 3). No meaning reads these constants:
a meaning reads the parameters its own state holds, so a claim over all states holds for every parameter.
The spec leaves no instruction's result open, so there is no free value here. -/

namespace Sys2Proof.Config

/-- IMAGE_BASE of the reference session: the value of the spec's examples (R10). DESIGN CHOICE (log 2), unsafe. -/
def referenceImageBase : Nat := 0x1000

/-- STACK_SIZE of the reference session: "1024 bytes in the reference sizing" (R9). DESIGN CHOICE (log 2), unsafe. -/
def referenceStackSize : Nat := 1024

/-- CACHE_SIZE of the reference session: the value of the spec's examples (R10). DESIGN CHOICE (log 2), unsafe. -/
def referenceCacheSize : Nat := 8

/-- MAX_INSNS of the reference session; the spec gives no value (R9, R86). DESIGN CHOICE (log 3), unsafe. -/
def referenceMaxInsns : Nat := 2 ^ 64

end Sys2Proof.Config
end

