-- ==== Sys2Proof/Syntax.lean ====
section
/-! DEFINITION. The instructions: one constructor for each row of spec/opcode_table.json, with every field of
its word (spec/30_encoding.md R64 to R70). The fields the core ignores are kept too, so that an instruction is
exactly a 32-bit word and the raw word a fault record carries is the instruction's encoding (log 10). -/

namespace Sys2Proof

/-- The six classes of the decoder (R61). -/
inductive InstrClass where
  | branchExchange
  | branch
  | multiply
  | dataProcessing
  | singleDataTransfer
  | unknown
  deriving DecidableEq, Repr

/-- The four conditions the branch class models (R71). -/
inductive Cond where
  | eq
  | ne
  | lt
  | gt
  deriving DecidableEq, Repr

/-- An instruction word, field by field. The argument names are the spec's field names: `cond` is bits 31:28
and is read by the branch class only (R60); `sb` is the ignored S bit; `rot`, `shift`, `acc`, `ra`, `p`, `u`,
`w` and a field named after a register the instruction does not use are ignored too. -/
inductive Instr where
  /-- `bx Rm` (R64, R120). -/
  | bx (cond : BitVec 4) (rm : RegNum)
  /-- `beq label` (R65, R118). -/
  | beq (imm24 : BitVec 24)
  /-- `bne label` (R65, R118). -/
  | bne (imm24 : BitVec 24)
  /-- `blt label` (R65, R118). -/
  | blt (imm24 : BitVec 24)
  /-- `bgt label` (R65, R118). -/
  | bgt (imm24 : BitVec 24)
  /-- `bleq label` (R65, R118). -/
  | bleq (imm24 : BitVec 24)
  /-- `blne label` (R65, R118). -/
  | blne (imm24 : BitVec 24)
  /-- `bllt label` (R65, R118). -/
  | bllt (imm24 : BitVec 24)
  /-- `blgt label` (R65, R118). -/
  | blgt (imm24 : BitVec 24)
  /-- A branch word with any other condition (R115). -/
  | branchUnsupported (cond : BitVec 4) (link : BitVec 1) (imm24 : BitVec 24)
  /-- `mul Rd, Rm, Rs` (R66, R109). `acc` is bits 21:20 and `ra` bits 15:12, both ignored. -/
  | mul (cond : BitVec 4) (acc : BitVec 2) (rd ra rs rm : RegNum)
  /-- `sub Rd, Rn, #imm8` (R67, R97). -/
  | subImm (cond : BitVec 4) (sb : BitVec 1) (rn rd : RegNum) (rot : BitVec 4) (imm8 : BitVec 8)
  /-- `sub Rd, Rn, Rm` (R67, R97). -/
  | subReg (cond : BitVec 4) (sb : BitVec 1) (rn rd : RegNum) (shift : BitVec 8) (rm : RegNum)
  /-- `add Rd, Rn, #imm8` (R67, R98). -/
  | addImm (cond : BitVec 4) (sb : BitVec 1) (rn rd : RegNum) (rot : BitVec 4) (imm8 : BitVec 8)
  /-- `add Rd, Rn, Rm` (R67, R98). -/
  | addReg (cond : BitVec 4) (sb : BitVec 1) (rn rd : RegNum) (shift : BitVec 8) (rm : RegNum)
  /-- `cmp Rn, #imm8` (R67, R99); `rd` is ignored. -/
  | cmpImm (cond : BitVec 4) (sb : BitVec 1) (rn rd : RegNum) (rot : BitVec 4) (imm8 : BitVec 8)
  /-- `cmp Rn, Rm` (R67, R99); `rd` is ignored. -/
  | cmpReg (cond : BitVec 4) (sb : BitVec 1) (rn rd : RegNum) (shift : BitVec 8) (rm : RegNum)
  /-- `mov Rd, #imm8` (R67, R100); `rn` is ignored. -/
  | movImm (cond : BitVec 4) (sb : BitVec 1) (rn rd : RegNum) (rot : BitVec 4) (imm8 : BitVec 8)
  /-- `mov Rd, Rm` (R67, R100); `rn` is ignored. -/
  | movReg (cond : BitVec 4) (sb : BitVec 1) (rn rd : RegNum) (shift : BitVec 8) (rm : RegNum)
  /-- Data processing, opcode 0000: a no-op (R101). -/
  | noopAnd (cond : BitVec 4) (i sb : BitVec 1) (rn rd : RegNum) (op2 : BitVec 12)
  /-- Data processing, opcode 0001: a no-op (R101). -/
  | noopEor (cond : BitVec 4) (i sb : BitVec 1) (rn rd : RegNum) (op2 : BitVec 12)
  /-- Data processing, opcode 0011: a no-op (R101). -/
  | noopRsb (cond : BitVec 4) (i sb : BitVec 1) (rn rd : RegNum) (op2 : BitVec 12)
  /-- Data processing, opcode 0101: a no-op (R101). -/
  | noopAdc (cond : BitVec 4) (i sb : BitVec 1) (rn rd : RegNum) (op2 : BitVec 12)
  /-- Data processing, opcode 0110: a no-op (R101). -/
  | noopSbc (cond : BitVec 4) (i sb : BitVec 1) (rn rd : RegNum) (op2 : BitVec 12)
  /-- Data processing, opcode 0111: a no-op (R101). -/
  | noopRsc (cond : BitVec 4) (i sb : BitVec 1) (rn rd : RegNum) (op2 : BitVec 12)
  /-- Data processing, opcode 1000: a no-op (R101). -/
  | noopTst (cond : BitVec 4) (i sb : BitVec 1) (rn rd : RegNum) (op2 : BitVec 12)
  /-- Data processing, opcode 1001: a no-op (R101). -/
  | noopTeq (cond : BitVec 4) (i sb : BitVec 1) (rn rd : RegNum) (op2 : BitVec 12)
  /-- Data processing, opcode 1011: a no-op (R101). -/
  | noopCmn (cond : BitVec 4) (i sb : BitVec 1) (rn rd : RegNum) (op2 : BitVec 12)
  /-- Data processing, opcode 1100: a no-op (R101). -/
  | noopOrr (cond : BitVec 4) (i sb : BitVec 1) (rn rd : RegNum) (op2 : BitVec 12)
  /-- Data processing, opcode 1110: a no-op (R101). -/
  | noopBic (cond : BitVec 4) (i sb : BitVec 1) (rn rd : RegNum) (op2 : BitVec 12)
  /-- Data processing, opcode 1111: a no-op (R101). -/
  | noopMvn (cond : BitVec 4) (i sb : BitVec 1) (rn rd : RegNum) (op2 : BitVec 12)
  /-- `ldr Rd, [Rn, #imm12]`, I = 1 (R69, R124, R126). -/
  | ldrImm (cond : BitVec 4) (p u w : BitVec 1) (rn rd : RegNum) (imm12 : BitVec 12)
  /-- `ldr Rd, [Rn, Rm]`, I = 0 (R69, R124, R126). -/
  | ldrReg (cond : BitVec 4) (p u w : BitVec 1) (rn rd : RegNum) (shift : BitVec 8) (rm : RegNum)
  /-- `ldrb Rd, [Rn, #imm12]`, I = 1 (R69, R124, R127). -/
  | ldrbImm (cond : BitVec 4) (p u w : BitVec 1) (rn rd : RegNum) (imm12 : BitVec 12)
  /-- `ldrb Rd, [Rn, Rm]`, I = 0 (R69, R124, R127). -/
  | ldrbReg (cond : BitVec 4) (p u w : BitVec 1) (rn rd : RegNum) (shift : BitVec 8) (rm : RegNum)
  /-- `str Rd, [Rn, #imm12]`, I = 1 (R69, R124, R128). -/
  | strImm (cond : BitVec 4) (p u w : BitVec 1) (rn rd : RegNum) (imm12 : BitVec 12)
  /-- `str Rd, [Rn, Rm]`, I = 0 (R69, R124, R128). -/
  | strReg (cond : BitVec 4) (p u w : BitVec 1) (rn rd : RegNum) (shift : BitVec 8) (rm : RegNum)
  /-- The byte store, which the core does not support (R70, R129). -/
  | strbUnsupported (cond : BitVec 4) (i p u w : BitVec 1) (rn rd : RegNum) (offset : BitVec 12)
  /-- Class Unknown, bits 27:25 = 100 (R63, R136). -/
  | unknown100 (cond : BitVec 4) (rest : BitVec 25)
  /-- Class Unknown, bits 27:26 = 11 (R63, R136). -/
  | unknown11 (cond : BitVec 4) (rest : BitVec 26)
  deriving DecidableEq, Repr

end Sys2Proof
end

