-- ==== Sys2Proof/WellFormed.lean ====
section
/-! DEFINITION. Which terms of `Instr` are instructions. The field widths are in the types; what is left is
that a term must not spell a word that the decoder's priority order (spec/30_encoding.md R62, R63) gives to
another row of the table. -/

namespace Sys2Proof

/-- The condition field is one of the four the branch class models (R71). -/
def condSupported (cond : BitVec 4) : Bool :=
  cond == 0b0000#4 || cond == 0b0001#4 || cond == 0b1011#4 || cond == 0b1100#4

/-- The word would be a Multiply word: bits 27:22 are zero and bits 7:4 are 1001 (R62, R63).
For opcodes 0000 and 0001 bits 27:22 are zero exactly when I = 0. -/
def looksMultiply (i : BitVec 1) (op2 : BitVec 12) : Bool :=
  i == 0#1 && op2.extractLsb' 4 4 == 0b1001#4

/-- The word would be a BranchExchange word: bits 27:4 are 0x12FFF1 (R62, R63).
Its opcode field is 1001, its I and S bits 0. -/
def looksBranchExchange (i sb : BitVec 1) (rn rd : RegNum) (op2 : BitVec 12) : Bool :=
  i == 0#1 && sb == 0#1 && rn == 0xF#4 && rd == 0xF#4 && op2.extractLsb' 4 8 == 0xF1#8

/-- The term is the instruction that its own word decodes to (R62, R63, R71). -/
def Instr.wf : Instr → Bool
  | .branchUnsupported cond _ _ => !condSupported cond
  | .noopAnd _ i _ _ _ op2 => !looksMultiply i op2
  | .noopEor _ i _ _ _ op2 => !looksMultiply i op2
  | .noopTeq _ i sb rn rd op2 => !looksBranchExchange i sb rn rd op2
  | .bx _ _ => true
  | .beq _ => true
  | .bne _ => true
  | .blt _ => true
  | .bgt _ => true
  | .bleq _ => true
  | .blne _ => true
  | .bllt _ => true
  | .blgt _ => true
  | .mul _ _ _ _ _ _ => true
  | .subImm _ _ _ _ _ _ => true
  | .subReg _ _ _ _ _ _ => true
  | .addImm _ _ _ _ _ _ => true
  | .addReg _ _ _ _ _ _ => true
  | .cmpImm _ _ _ _ _ _ => true
  | .cmpReg _ _ _ _ _ _ => true
  | .movImm _ _ _ _ _ _ => true
  | .movReg _ _ _ _ _ _ => true
  | .noopRsb _ _ _ _ _ _ => true
  | .noopAdc _ _ _ _ _ _ => true
  | .noopSbc _ _ _ _ _ _ => true
  | .noopRsc _ _ _ _ _ _ => true
  | .noopTst _ _ _ _ _ _ => true
  | .noopCmn _ _ _ _ _ _ => true
  | .noopOrr _ _ _ _ _ _ => true
  | .noopBic _ _ _ _ _ _ => true
  | .noopMvn _ _ _ _ _ _ => true
  | .ldrImm _ _ _ _ _ _ _ => true
  | .ldrReg _ _ _ _ _ _ _ _ => true
  | .ldrbImm _ _ _ _ _ _ _ => true
  | .ldrbReg _ _ _ _ _ _ _ _ => true
  | .strImm _ _ _ _ _ _ _ => true
  | .strReg _ _ _ _ _ _ _ _ => true
  | .strbUnsupported _ _ _ _ _ _ _ _ => true
  | .unknown100 _ _ => true
  | .unknown11 _ _ => true

end Sys2Proof
end

