-- ==== Sys2Proof/Decode.lean ====
section
/-! DEFINITION. The decoder and the encoder (spec/30_encoding.md). `decodeWord` is the spec's decoder: total,
by priority, reading no state. `decode` reads a byte stream and refuses, by name, one too short for a word. -/

namespace Sys2Proof

/-! ### Bytes and words -/

/-- The little-endian word of four bytes, the first at the lowest address (R38). -/
def wordOfBytes (b0 b1 b2 b3 : Byte) : Word :=
  b3 ++ b2 ++ b1 ++ b0

/-- Byte `k` of a word, counting from the least significant (R38). -/
def byteOfWord (v : Word) (k : Nat) : Byte :=
  v.extractLsb' (8 * k) 8

/-- The four bytes of a word in the order memory holds them (R38). -/
def wordBytes (v : Word) : List Byte :=
  [byteOfWord v 0, byteOfWord v 1, byteOfWord v 2, byteOfWord v 3]

/-! ### Classification -/

/-- The class of a word: first match wins (R62). -/
def classify (w : Word) : InstrClass :=
  if w.extractLsb' 4 24 = 0x12FFF1#24 then .branchExchange
  else if w.extractLsb' 25 3 = 0b101#3 then .branch
  else if w.extractLsb' 22 6 = 0b000000#6 ∧ w.extractLsb' 4 4 = 0b1001#4 then .multiply
  else if w.extractLsb' 26 2 = 0b00#2 then .dataProcessing
  else if w.extractLsb' 26 2 = 0b01#2 then .singleDataTransfer
  else .unknown

/-! ### The fields of each format -/

/-- Bits 31:28 (R60). -/
def condField (w : Word) : BitVec 4 := w.extractLsb' 28 4

/-- A branch word's instruction: the condition and the link bit choose the row (R65, R71). -/
def decodeBranch (w : Word) : Instr :=
  let cond := condField w
  let link := w.extractLsb' 24 1
  let imm24 := w.extractLsb' 0 24
  if cond = 0b0000#4 then if link = 1#1 then .bleq imm24 else .beq imm24
  else if cond = 0b0001#4 then if link = 1#1 then .blne imm24 else .bne imm24
  else if cond = 0b1011#4 then if link = 1#1 then .bllt imm24 else .blt imm24
  else if cond = 0b1100#4 then if link = 1#1 then .blgt imm24 else .bgt imm24
  else .branchUnsupported cond link imm24

/-- A multiply word's instruction (R66). -/
def decodeMultiply (w : Word) : Instr :=
  .mul (condField w) (w.extractLsb' 20 2) (w.extractLsb' 16 4) (w.extractLsb' 12 4) (w.extractLsb' 8 4)
    (w.extractLsb' 0 4)

/-- A data-processing word's instruction (R67, R68). -/
def decodeDataProcessing (w : Word) : Instr :=
  let cond := condField w
  let i := w.extractLsb' 25 1
  let op := w.extractLsb' 21 4
  let sb := w.extractLsb' 20 1
  let rn := w.extractLsb' 16 4
  let rd := w.extractLsb' 12 4
  let op2 := w.extractLsb' 0 12
  let rot := w.extractLsb' 8 4
  let imm8 := w.extractLsb' 0 8
  let shift := w.extractLsb' 4 8
  let rm := w.extractLsb' 0 4
  if op = 0b0010#4 then
    if i = 1#1 then .subImm cond sb rn rd rot imm8 else .subReg cond sb rn rd shift rm
  else if op = 0b0100#4 then
    if i = 1#1 then .addImm cond sb rn rd rot imm8 else .addReg cond sb rn rd shift rm
  else if op = 0b1010#4 then
    if i = 1#1 then .cmpImm cond sb rn rd rot imm8 else .cmpReg cond sb rn rd shift rm
  else if op = 0b1101#4 then
    if i = 1#1 then .movImm cond sb rn rd rot imm8 else .movReg cond sb rn rd shift rm
  else if op = 0b0000#4 then .noopAnd cond i sb rn rd op2
  else if op = 0b0001#4 then .noopEor cond i sb rn rd op2
  else if op = 0b0011#4 then .noopRsb cond i sb rn rd op2
  else if op = 0b0101#4 then .noopAdc cond i sb rn rd op2
  else if op = 0b0110#4 then .noopSbc cond i sb rn rd op2
  else if op = 0b0111#4 then .noopRsc cond i sb rn rd op2
  else if op = 0b1000#4 then .noopTst cond i sb rn rd op2
  else if op = 0b1001#4 then .noopTeq cond i sb rn rd op2
  else if op = 0b1011#4 then .noopCmn cond i sb rn rd op2
  else if op = 0b1100#4 then .noopOrr cond i sb rn rd op2
  else if op = 0b1110#4 then .noopBic cond i sb rn rd op2
  else .noopMvn cond i sb rn rd op2

/-- A single-data-transfer word's instruction: B and L choose the operation, I the offset form (R69, R70, R124). -/
def decodeTransfer (w : Word) : Instr :=
  let cond := condField w
  let i := w.extractLsb' 25 1
  let p := w.extractLsb' 24 1
  let u := w.extractLsb' 23 1
  let b := w.extractLsb' 22 1
  let wb := w.extractLsb' 21 1
  let l := w.extractLsb' 20 1
  let rn := w.extractLsb' 16 4
  let rd := w.extractLsb' 12 4
  let imm12 := w.extractLsb' 0 12
  let shift := w.extractLsb' 4 8
  let rm := w.extractLsb' 0 4
  if b = 1#1 then
    if l = 1#1 then
      if i = 1#1 then .ldrbImm cond p u wb rn rd imm12 else .ldrbReg cond p u wb rn rd shift rm
    else .strbUnsupported cond i p u wb rn rd imm12
  else
    if l = 1#1 then
      if i = 1#1 then .ldrImm cond p u wb rn rd imm12 else .ldrReg cond p u wb rn rd shift rm
    else
      if i = 1#1 then .strImm cond p u wb rn rd imm12 else .strReg cond p u wb rn rd shift rm

/-- An Unknown word's row: the table splits the class by bits 27:26 (R63). -/
def decodeUnknown (w : Word) : Instr :=
  if w.extractLsb' 26 2 = 0b11#2 then .unknown11 (condField w) (w.extractLsb' 0 26)
  else .unknown100 (condField w) (w.extractLsb' 0 25)

/-- The decoder: every one of the 2^32 words is exactly one instruction (R62). -/
def decodeWord (w : Word) : Instr :=
  match classify w with
  | .branchExchange => .bx (condField w) (w.extractLsb' 0 4)
  | .branch => decodeBranch w
  | .multiply => decodeMultiply w
  | .dataProcessing => decodeDataProcessing w
  | .singleDataTransfer => decodeTransfer w
  | .unknown => decodeUnknown w

/-- Why a byte stream has no first instruction. -/
inductive DecodeError where
  /-- Fewer than the four bytes every instruction has (R59). Raised by `decode` only; safe. -/
  | truncated (bytes : Nat)
  deriving DecidableEq, Repr

/-- The first instruction of a byte stream, and the bytes after it (R38, R59). -/
def decode : List Byte → Except DecodeError (Instr × List Byte)
  | b0 :: b1 :: b2 :: b3 :: rest => .ok (decodeWord (wordOfBytes b0 b1 b2 b3), rest)
  | bytes => .error (.truncated bytes.length)

/-! ### The encoder -/

/-- The Branch format (R65). -/
def branchWord (cond : BitVec 4) (link : BitVec 1) (imm24 : BitVec 24) : Word :=
  cond ++ 0b101#3 ++ link ++ imm24

/-- The DataProcessing format (R67). -/
def dpWord (cond : BitVec 4) (i : BitVec 1) (op : BitVec 4) (sb : BitVec 1) (rn rd : RegNum)
    (op2 : BitVec 12) : Word :=
  cond ++ 0b00#2 ++ i ++ op ++ sb ++ rn ++ rd ++ op2

/-- The DataProcessing format with an immediate operand, I = 1 (R67). -/
def dpImmWord (cond op : BitVec 4) (sb : BitVec 1) (rn rd : RegNum) (rot : BitVec 4) (imm8 : BitVec 8) : Word :=
  dpWord cond 1#1 op sb rn rd (rot ++ imm8)

/-- The DataProcessing format with a register operand, I = 0 (R67). -/
def dpRegWord (cond op : BitVec 4) (sb : BitVec 1) (rn rd : RegNum) (shift : BitVec 8) (rm : RegNum) : Word :=
  dpWord cond 0#1 op sb rn rd (shift ++ rm)

/-- The SingleDataTransfer format (R69). -/
def transferWord (cond : BitVec 4) (i p u b w l : BitVec 1) (rn rd : RegNum) (offset : BitVec 12) : Word :=
  cond ++ 0b01#2 ++ i ++ p ++ u ++ b ++ w ++ l ++ rn ++ rd ++ offset

/-- The word of an instruction (R64 to R71). -/
def encode : Instr → Word
  | .bx cond rm => cond ++ 0x12FFF1#24 ++ rm
  | .beq imm24 => branchWord 0b0000#4 0#1 imm24
  | .bne imm24 => branchWord 0b0001#4 0#1 imm24
  | .blt imm24 => branchWord 0b1011#4 0#1 imm24
  | .bgt imm24 => branchWord 0b1100#4 0#1 imm24
  | .bleq imm24 => branchWord 0b0000#4 1#1 imm24
  | .blne imm24 => branchWord 0b0001#4 1#1 imm24
  | .bllt imm24 => branchWord 0b1011#4 1#1 imm24
  | .blgt imm24 => branchWord 0b1100#4 1#1 imm24
  | .branchUnsupported cond link imm24 => branchWord cond link imm24
  | .mul cond acc rd ra rs rm => cond ++ 0b000000#6 ++ acc ++ rd ++ ra ++ rs ++ 0b1001#4 ++ rm
  | .subImm cond sb rn rd rot imm8 => dpImmWord cond 0b0010#4 sb rn rd rot imm8
  | .subReg cond sb rn rd shift rm => dpRegWord cond 0b0010#4 sb rn rd shift rm
  | .addImm cond sb rn rd rot imm8 => dpImmWord cond 0b0100#4 sb rn rd rot imm8
  | .addReg cond sb rn rd shift rm => dpRegWord cond 0b0100#4 sb rn rd shift rm
  | .cmpImm cond sb rn rd rot imm8 => dpImmWord cond 0b1010#4 sb rn rd rot imm8
  | .cmpReg cond sb rn rd shift rm => dpRegWord cond 0b1010#4 sb rn rd shift rm
  | .movImm cond sb rn rd rot imm8 => dpImmWord cond 0b1101#4 sb rn rd rot imm8
  | .movReg cond sb rn rd shift rm => dpRegWord cond 0b1101#4 sb rn rd shift rm
  | .noopAnd cond i sb rn rd op2 => dpWord cond i 0b0000#4 sb rn rd op2
  | .noopEor cond i sb rn rd op2 => dpWord cond i 0b0001#4 sb rn rd op2
  | .noopRsb cond i sb rn rd op2 => dpWord cond i 0b0011#4 sb rn rd op2
  | .noopAdc cond i sb rn rd op2 => dpWord cond i 0b0101#4 sb rn rd op2
  | .noopSbc cond i sb rn rd op2 => dpWord cond i 0b0110#4 sb rn rd op2
  | .noopRsc cond i sb rn rd op2 => dpWord cond i 0b0111#4 sb rn rd op2
  | .noopTst cond i sb rn rd op2 => dpWord cond i 0b1000#4 sb rn rd op2
  | .noopTeq cond i sb rn rd op2 => dpWord cond i 0b1001#4 sb rn rd op2
  | .noopCmn cond i sb rn rd op2 => dpWord cond i 0b1011#4 sb rn rd op2
  | .noopOrr cond i sb rn rd op2 => dpWord cond i 0b1100#4 sb rn rd op2
  | .noopBic cond i sb rn rd op2 => dpWord cond i 0b1110#4 sb rn rd op2
  | .noopMvn cond i sb rn rd op2 => dpWord cond i 0b1111#4 sb rn rd op2
  | .ldrImm cond p u w rn rd imm12 => transferWord cond 1#1 p u 0#1 w 1#1 rn rd imm12
  | .ldrReg cond p u w rn rd shift rm => transferWord cond 0#1 p u 0#1 w 1#1 rn rd (shift ++ rm)
  | .ldrbImm cond p u w rn rd imm12 => transferWord cond 1#1 p u 1#1 w 1#1 rn rd imm12
  | .ldrbReg cond p u w rn rd shift rm => transferWord cond 0#1 p u 1#1 w 1#1 rn rd (shift ++ rm)
  | .strImm cond p u w rn rd imm12 => transferWord cond 1#1 p u 0#1 w 0#1 rn rd imm12
  | .strReg cond p u w rn rd shift rm => transferWord cond 0#1 p u 0#1 w 0#1 rn rd (shift ++ rm)
  | .strbUnsupported cond i p u w rn rd offset => transferWord cond i p u 1#1 w 0#1 rn rd offset
  | .unknown100 cond rest => cond ++ 0b100#3 ++ rest
  | .unknown11 cond rest => cond ++ 0b11#2 ++ rest

/-- The class an instruction belongs to: the format of its row in the opcode table (R61, R64 to R69). -/
def Instr.cls : Instr → InstrClass
  | .bx _ _ => .branchExchange
  | .beq _ | .bne _ | .blt _ | .bgt _ | .bleq _ | .blne _ | .bllt _ | .blgt _ => .branch
  | .branchUnsupported _ _ _ => .branch
  | .mul _ _ _ _ _ _ => .multiply
  | .subImm _ _ _ _ _ _ | .subReg _ _ _ _ _ _ | .addImm _ _ _ _ _ _ | .addReg _ _ _ _ _ _ => .dataProcessing
  | .cmpImm _ _ _ _ _ _ | .cmpReg _ _ _ _ _ _ | .movImm _ _ _ _ _ _ | .movReg _ _ _ _ _ _ => .dataProcessing
  | .noopAnd _ _ _ _ _ _ | .noopEor _ _ _ _ _ _ | .noopRsb _ _ _ _ _ _ | .noopAdc _ _ _ _ _ _ => .dataProcessing
  | .noopSbc _ _ _ _ _ _ | .noopRsc _ _ _ _ _ _ | .noopTst _ _ _ _ _ _ | .noopTeq _ _ _ _ _ _ => .dataProcessing
  | .noopCmn _ _ _ _ _ _ | .noopOrr _ _ _ _ _ _ | .noopBic _ _ _ _ _ _ | .noopMvn _ _ _ _ _ _ => .dataProcessing
  | .ldrImm _ _ _ _ _ _ _ | .ldrReg _ _ _ _ _ _ _ _ | .ldrbImm _ _ _ _ _ _ _ => .singleDataTransfer
  | .ldrbReg _ _ _ _ _ _ _ _ | .strImm _ _ _ _ _ _ _ | .strReg _ _ _ _ _ _ _ _ => .singleDataTransfer
  | .strbUnsupported _ _ _ _ _ _ _ _ => .singleDataTransfer
  | .unknown100 _ _ | .unknown11 _ _ => .unknown

/-! ### The host's view of the decoder -/

/-- The word of the table's numbering: its `nbits` low bits, every bit above them 0. -/
def tableWord (nbits w : Nat) : Word :=
  BitVec.ofNat 32 (w % 2 ^ nbits)

/-- The instruction the decoder reads from the table's word, laid out as memory holds it (R38). -/
def decodeTableWord (nbits w : Nat) : Option Instr :=
  match decode (wordBytes (tableWord nbits w)) with
  | .ok (i, _) => some i
  | .error _ => none

end Sys2Proof
end

