-- ==== Sys2Proof/Machine/State.lean ====
section
/-! DEFINITION. Everything the spec gives the machine (spec/10_state.md, the `State` tuple, R31), as plain data,
the reasons a step of an ended session stops, and the state of the reference session right after construction. -/

namespace Sys2Proof.Machine

/-- The condition flags Negative, Zero, Carry and Overflow, one bit each (R23). No word holds them (R25). -/
structure Flags where
  n : Bool
  z : Bool
  c : Bool
  v : Bool
  deriving DecidableEq, Repr

/-- The four instruction counters, natural numbers without an upper bound (R26). -/
structure Counters where
  computation : Nat
  memory : Nat
  taken : Nat
  notTaken : Nat
  deriving DecidableEq, Repr

/-- A name for each of the four instruction counters (R26). -/
inductive Counter where
  | computation
  | memory
  | taken
  | notTaken
  deriving DecidableEq, Repr

/-- The MemoryImage's bytes (R36, R37): address and byte, addresses strictly rising, no entry zero. An address
that is not listed reads as zero, the reset value of padding and stack (R37, log 12). -/
abbrev Memory := List Host.Cell

/-- The canonical form of a memory: equal memories are equal lists (log 12). -/
abbrev Memory.wf (m : Memory) : Prop :=
  m.Pairwise (fun a b => a.1 < b.1) ∧ ∀ c ∈ m, c.2 ≠ 0#8

/-- One slot of the cache model: "a validity bit and a tag" (R29). -/
structure Slot where
  valid : Bool
  tag : Word
  deriving DecidableEq, Repr

/-- The direct-mapped cache model: CACHE_SIZE slots and three counters (R29). CACHE_SIZE is the number of
slots; no step changes it (R9). -/
structure ICache where
  slots : List Slot
  requests : Nat
  hits : Nat
  misses : Nat
  deriving DecidableEq, Repr

/-- The parameters fixed for the whole session that its rules still read after construction (R9, R37): where the
image stands, how large its two regions are, and the instruction-count ceiling. -/
structure SessionConfig where
  imageBase : Nat
  codeSize : Nat
  stackSize : Nat
  maxInsns : Nat
  deriving DecidableEq, Repr

/-- The session state a fault record reports (R134): registers, flags, counters, memory and cache model, with
the parameters of the session. Register 15 is the program counter (R12, R15). -/
structure Session where
  x : Vector Word 16
  flags : Flags
  cnt : Counters
  mem : Memory
  icache : ICache
  cfg : SessionConfig
  deriving DecidableEq, Repr

/-- The kind of memory access a fault names (R134). -/
inductive Access where
  | fetch
  | load
  | store
  deriving DecidableEq, Repr

/-- Why a form is unsupported (R134, R138). -/
inductive UnsupportedReason where
  | byteStore
  | condition
  | pcOperand
  deriving DecidableEq, Repr

/-- The fault kinds a step raises, each with the fields R134 gives it. `pc` is the address of the faulting
instruction (for `nonTerminating`, the refused program counter), `word` the raw instruction word. None is the
host's fault: each is taken, by `raise`, into the status `failed` (R134, R144; log 1). -/
inductive StepFault where
  /-- The word decodes to class Unknown (R136). Raised by the two Unknown rows; safe. -/
  | unknownInstruction (pc word : Word)
  /-- A fetch, load or store outside the image (R137). Raised by the fetch, `ldr`, `ldrb`, `str`; safe. -/
  | outOfBounds (pc address : Word) (access : Access)
  /-- A byte store, a condition outside the four, or `r15` as operand or destination (R138); safe. -/
  | unsupportedAddressingMode (pc word : Word) (reason : UnsupportedReason)
  /-- The session has completed MAX_INSNS instructions (R139). Raised at the top of a step; safe. -/
  | nonTerminating (pc : Word)
  /-- A word access at an address that is not a multiple of 4 (R140). Raised by the fetch, `ldr`, `str`; safe. -/
  | misalignedAccess (pc address : Word) (access : Access)
  deriving DecidableEq, Repr

/-- The record a failed session keeps: the fault, and the session state before the faulting step (R134). -/
structure FaultRecord where
  fault : StepFault
  state : Session
  deriving DecidableEq, Repr

/-- The session status (R33). -/
inductive Status where
  | running
  | halted
  | failed (record : FaultRecord)
  deriving DecidableEq, Repr

/-- The whole state of one session (spec/10_state.md, the `State` tuple). -/
structure State where
  session : Session
  status : Status
  deriving DecidableEq, Repr

/-- Why a step has no next state: the session has ended, and "takes no further step" (R33, R78). No step of a
running session answers one of these (log 1). -/
inductive Fault where
  /-- The session is `halted`; `result` is register 0, the result of the run (R18, R84). Raised by `step` alone;
  no error, and safe. -/
  | sessionHalted (result : Word)
  /-- The session is `failed`; the record is the typed failure the caller gets (R78, R135). Raised by `step`
  alone; safe. -/
  | sessionFailed (record : FaultRecord)
  deriving DecidableEq, Repr

/-- Why an instruction has no meaning. -/
inductive Refusal where
  /-- An instruction the model gives no meaning to yet. No arm of `exec` answers it; safe. -/
  | notModelled (mnemonic : String)
  deriving DecidableEq, Repr

/-- The reference session right after construction (R31, R151): empty CODE, ARGS and INIT_REGS zero, INIT_FLAGS
0000, and the parameters of `Config` (log 2 to log 6). Its values are those of V-RST-3 of
spec/95_test_vectors.md but for ARGS. `reset_is_constructed` (Tests) shows that construction gives it. -/
def State.reset : State where
  session := {
    x := #v[0, 0, 0, 0, 0, 0, 0, 0, 0, 0, 0, 0, 0, 0x1400, 0, 0x1000]
    flags := { n := false, z := false, c := false, v := false }
    cnt := { computation := 0, memory := 0, taken := 0, notTaken := 0 }
    mem := []
    icache := {
      slots := List.replicate Config.referenceCacheSize { valid := false, tag := 0 }
      requests := 0
      hits := 0
      misses := 0 }
    cfg := {
      imageBase := Config.referenceImageBase
      codeSize := 0
      stackSize := Config.referenceStackSize
      maxInsns := Config.referenceMaxInsns } }
  status := .running

end Sys2Proof.Machine
end

