-- ==== Sys2Proof/Machine/Ops.lean ====
section
/-! DEFINITION. The shared operations: registers, memory, taking a fault, and completing an instruction.
Every meaning is written over these, so what a register write, an access or a fault does is decided once. -/

namespace Sys2Proof.Machine

/-! ### Registers (spec/10_state.md R15 to R20) -/

/-- `x[i]` (R12, R15). No register is hardwired. -/
def Session.reg (t : Session) (r : RegNum) : Word :=
  t.x[r.toNat]'r.isLt

/-- `x[i] <- v` (R12). -/
def Session.setReg (t : Session) (r : RegNum) (v : Word) : Session :=
  { t with x := t.x.set r.toNat v r.isLt }

/-- The program counter is register 15 (R12, R17). While an instruction executes it holds `ia`, the address
the instruction was fetched from (R19). -/
def Session.pc (t : Session) : Word :=
  t.reg RegNum.pc

/-! ### Counters (R26) -/

/-- `cnt.k += 1` (R12). -/
def Counters.bump (c : Counters) : Counter → Counters
  | .computation => { c with computation := c.computation + 1 }
  | .memory => { c with memory := c.memory + 1 }
  | .taken => { c with taken := c.taken + 1 }
  | .notTaken => { c with notTaken := c.notTaken + 1 }

/-- The number of instructions the session has completed (R27, R79). -/
def Session.completed (t : Session) : Nat :=
  t.cnt.computation + t.cnt.memory + t.cnt.taken + t.cnt.notTaken

/-- What every handler does when it completes: one counter, and the next fetch address (R82). -/
def Session.complete (t : Session) (k : Counter) (next : Word) : Session :=
  { t with cnt := t.cnt.bump k }.setReg RegNum.pc next

/-! ### The image (spec/20_memory.md R36 to R43) -/

/-- IMAGE_SIZE (R37). -/
def SessionConfig.imageSize (c : SessionConfig) : Nat :=
  c.codeSize + c.stackSize

/-- IMAGE_END, an exact integer (R37). -/
def SessionConfig.imageEnd (c : SessionConfig) : Nat :=
  c.imageBase + c.imageSize

/-- `InImage(a, n)`, on exact integers (R43). -/
abbrev SessionConfig.InImage (c : SessionConfig) (a : Word) (n : Nat) : Prop :=
  c.imageBase ≤ a.toNat ∧ a.toNat + n ≤ c.imageEnd

/-- One byte of memory; an address that is not listed reads as zero (R37, log 12). -/
def Memory.read : Memory → Nat → Byte
  | [], _ => 0#8
  | (k, b) :: m, a => if k = a then b else Memory.read m a

/-- One byte written, keeping the canonical form: a zero byte is not listed. -/
def Memory.write : Memory → Nat → Byte → Memory
  | [], a, v => if v = 0#8 then [] else [(a, v)]
  | (k, b) :: m, a, v =>
    if a < k then (if v = 0#8 then (k, b) :: m else (a, v) :: (k, b) :: m)
    else if a = k then (if v = 0#8 then m else (a, v) :: m)
    else (k, b) :: Memory.write m a v

/-- The little-endian word at an address (R38). -/
def Memory.readWord (m : Memory) (a : Nat) : Word :=
  wordOfBytes (m.read a) (m.read (a + 1)) (m.read (a + 2)) (m.read (a + 3))

/-- The four bytes of a word, the least significant at the lowest address (R38, R41). -/
def Memory.writeWord (m : Memory) (a : Nat) (v : Word) : Memory :=
  (((m.write a (byteOfWord v 0)).write (a + 1) (byteOfWord v 1)).write (a + 2) (byteOfWord v 2)).write (a + 3)
    (byteOfWord v 3)

/-- `MemRead(a, 4)` with access kind `k`: alignment first, then bounds (R40, R42, R43). -/
def Session.memReadWord (t : Session) (k : Access) (a : Word) : Except StepFault Word :=
  if a.toNat % 4 ≠ 0 then .error (.misalignedAccess t.pc a k)
  else if t.cfg.InImage a 4 then .ok (t.mem.readWord a.toNat)
  else .error (.outOfBounds t.pc a k)

/-- `MemRead(a, 1)` with access kind `k`, zero-extended: bounds only (R40, R42, R43). -/
def Session.memReadByte (t : Session) (k : Access) (a : Word) : Except StepFault Word :=
  if t.cfg.InImage a 1 then .ok ((t.mem.read a.toNat).setWidth 32)
  else .error (.outOfBounds t.pc a k)

/-- `MemWrite(a, 4, v)`: alignment first, then bounds (R41, R42, R43). -/
def Session.memWriteWord (t : Session) (a v : Word) : Except StepFault Session :=
  if a.toNat % 4 ≠ 0 then .error (.misalignedAccess t.pc a .store)
  else if t.cfg.InImage a 4 then .ok { t with mem := t.mem.writeWord a.toNat v }
  else .error (.outOfBounds t.pc a .store)

/-! ### Faults (spec/60_exceptions.md) -/

/-- Taking a fault (R134, R144): the status becomes `Failed` with the record, whose state is the session as it
stands; no register, flag, counter, memory byte or cache slot changes, and control goes nowhere. There is no
operation that returns from one: a failed session takes no further step (R145). -/
def raise (s : State) (f : StepFault) : State :=
  { s with status := .failed { fault := f, state := s.session } }

/-- What a handler answers: the session it leaves, or the fault it raises with nothing committed (R88). -/
def finish (s : State) : Except StepFault Session → Host.Outcome State Fault Refusal
  | .ok t => .next { s with session := t }
  | .error f => .next (raise s f)

/-- `raise UnsupportedAddressingMode(reason, pc = ia, word = w)` (R138). -/
def Session.unsupported (t : Session) (w : Word) (reason : UnsupportedReason) : StepFault :=
  .unsupportedAddressingMode t.pc w reason

/-- The `r15` check shared by every handler (R90, R91): an instruction that reads or writes register 15 through
one of the fields `named` raises `PcOperand` before it does anything else. -/
def Session.guardPc (t : Session) (w : Word) (named : List RegNum) (go : Except StepFault Session) :
    Except StepFault Session :=
  if RegNum.pc ∈ named then .error (t.unsupported w .pcOperand) else go

/-- A name for each fault kind of the taxonomy (R133). -/
inductive FaultKind where
  | unknownInstruction
  | outOfBounds
  | unsupportedAddressingMode
  | nonTerminating
  | misalignedAccess
  | invalidConfiguration
  deriving DecidableEq, Repr

/-- The numeric code of a fault kind (R133). -/
def FaultKind.code : FaultKind → Nat
  | .unknownInstruction => 0
  | .outOfBounds => 1
  | .unsupportedAddressingMode => 2
  | .nonTerminating => 3
  | .misalignedAccess => 4
  | .invalidConfiguration => 5

/-- The `kind` field of a record (R134). -/
def StepFault.kind : StepFault → FaultKind
  | .unknownInstruction _ _ => .unknownInstruction
  | .outOfBounds _ _ _ => .outOfBounds
  | .unsupportedAddressingMode _ _ _ => .unsupportedAddressingMode
  | .nonTerminating _ => .nonTerminating
  | .misalignedAccess _ _ _ => .misalignedAccess

/-- The `pc` field of a record, present for every step fault (R134). -/
def StepFault.pc : StepFault → Word
  | .unknownInstruction pc _ => pc
  | .outOfBounds pc _ _ => pc
  | .unsupportedAddressingMode pc _ _ => pc
  | .nonTerminating pc => pc
  | .misalignedAccess pc _ _ => pc

/-- The `word` field of a record, where it is present (R134). -/
def StepFault.word : StepFault → Option Word
  | .unknownInstruction _ w => some w
  | .outOfBounds _ _ _ => none
  | .unsupportedAddressingMode _ w _ => some w
  | .nonTerminating _ => none
  | .misalignedAccess _ _ _ => none

/-- The `address` and `access` fields of a record, where they are present (R134). -/
def StepFault.addressAccess : StepFault → Option (Word × Access)
  | .unknownInstruction _ _ => none
  | .outOfBounds _ a k => some (a, k)
  | .unsupportedAddressingMode _ _ _ => none
  | .nonTerminating _ => none
  | .misalignedAccess _ a k => some (a, k)

/-- The `reason` field of a record, where it is present (R134). -/
def StepFault.reason : StepFault → Option UnsupportedReason
  | .unknownInstruction _ _ => none
  | .outOfBounds _ _ _ => none
  | .unsupportedAddressingMode _ _ r => some r
  | .nonTerminating _ => none
  | .misalignedAccess _ _ _ => none

/-! ### Statistics (spec/70_reset_and_hazards.md R153) -/

/-- The seven counts the session exports, as natural numbers (R153). -/
structure Statistics where
  computation : Nat
  memory : Nat
  taken : Nat
  notTaken : Nat
  requests : Nat
  hits : Nat
  misses : Nat
  deriving DecidableEq, Repr

/-- Statistics export (R153): readable in every status; the ratios are the reporting collaborator's (D35). -/
def State.statistics (s : State) : Statistics where
  computation := s.session.cnt.computation
  memory := s.session.cnt.memory
  taken := s.session.cnt.taken
  notTaken := s.session.cnt.notTaken
  requests := s.session.icache.requests
  hits := s.session.icache.hits
  misses := s.session.icache.misses

end Sys2Proof.Machine
end

