-- ==== Sys2Proof/Machine/Cache.lean ====
section
/-! DEFINITION. The direct-mapped instruction-cache model (spec/20_memory.md R53 to R57): statistics only. -/

namespace Sys2Proof.Machine

/-- How often `n` can be shifted right by one before it reaches 1, with `fuel` shifts at most. -/
def shiftsToOne : Nat → Nat → Nat
  | 0, _ => 0
  | fuel + 1, n => if n ≤ 1 then 0 else shiftsToOne fuel (n >>> 1) + 1

/-- `log2` by repeated right shift (R54). -/
def cacheLog2 (size : Nat) : Nat :=
  shiftsToOne size size

/-- A power of two, at least 1: the sizes the cache may have (R9, R56). -/
abbrev PowerOfTwo (n : Nat) : Prop :=
  2 ^ cacheLog2 n = n

/-- CACHE_SIZE (R9, R29). -/
def ICache.size (c : ICache) : Nat :=
  c.slots.length

/-- The slot an address maps to (R53). -/
def slotIndex (size : Nat) (addr : Word) : Nat :=
  (addr.toNat >>> 2) &&& (size - 1)

/-- The tag of an address: the bits above the slot index (R53). -/
def slotTag (size : Nat) (addr : Word) : Word :=
  BitVec.ofNat 32 (addr.toNat >>> (cacheLog2 size + 2))

/-- The slot at an index. -/
def ICache.slotAt (c : ICache) (i : Nat) : Slot :=
  c.slots.getD i { valid := false, tag := 0#32 }

/-- The access would hit: the slot of the address is valid and holds its tag (R53). -/
def ICache.hit (c : ICache) (addr : Word) : Bool :=
  let slot := c.slotAt (slotIndex c.size addr)
  slot.valid && slot.tag == slotTag c.size addr

/-- `ICacheAccess(addr)` (R53). Both branches leave the slot valid. -/
def ICache.access (c : ICache) (addr : Word) : ICache :=
  if c.hit addr then
    { c with requests := c.requests + 1, hits := c.hits + 1 }
  else
    { c with
      requests := c.requests + 1
      misses := c.misses + 1
      slots := c.slots.set (slotIndex c.size addr) { valid := true, tag := slotTag c.size addr } }

/-- The accesses of a sequence of fetch addresses, in order (R58). -/
def ICache.accessAll (c : ICache) (addrs : List Word) : ICache :=
  addrs.foldl ICache.access c

/-- The session after one cache access (R55, R81). -/
def Session.cacheAccess (t : Session) (addr : Word) : Session :=
  { t with icache := t.icache.access addr }

end Sys2Proof.Machine
end

