-- ==== Sys2Proof/Machine/Flags.lean ====
section
/-! DEFINITION. The one flag computation, which `cmp` alone triggers (spec/41_data_processing.md R103 to R106),
and the conditions the branch class evaluates (spec/43_branch.md R114). -/

namespace Sys2Proof.Machine

/-- `CmpFlags(a, b)` (R103): the carry is the borrow (R105), and the overflow is the exact signed difference
leaving the 32-bit range. -/
def cmpFlags (a b : Word) : Flags :=
  let res := a - b
  let d : Int := a.toInt - b.toInt
  { n := res.msb
    z := decide (res = 0#32)
    c := decide (a.toNat < b.toNat)
    v := decide (d > 2 ^ 31 - 1 ∨ d < -(2 ^ 31)) }

/-- `CondHolds` for the four conditions of the branch class (R114). The carry is read by none. -/
def condHolds (f : Flags) : Cond → Bool
  | .eq => f.z
  | .ne => !f.z
  | .lt => f.n != f.v
  | .gt => !f.z && f.n == f.v

end Sys2Proof.Machine
end

