-- ==== Sys2Proof/Machine/Operands.lean ====
section
/-! DEFINITION. Every operand form (spec/30_encoding.md R72): the second operand of data processing, the offset
of a transfer, the effective address, and the branch target. -/

namespace Sys2Proof.Machine

/-- The second operand of data processing: an unrotated immediate (I = 1) or an unshifted register (I = 0). -/
inductive Operand2 where
  | imm (imm8 : BitVec 8)
  | reg (rm : RegNum)
  deriving DecidableEq, Repr

/-- The registers an operand form reads (R90). -/
def Operand2.regs : Operand2 → List RegNum
  | .imm _ => []
  | .reg rm => [rm]

/-- The value of the second operand (R72, R96). -/
def Operand2.value (t : Session) : Operand2 → Word
  | .imm imm8 => imm8.setWidth 32
  | .reg rm => t.reg rm

/-- The offset of a transfer: an immediate (I = 1) or an unshifted register (I = 0), the polarity of R124. -/
inductive Offset where
  | imm (imm12 : BitVec 12)
  | reg (rm : RegNum)
  deriving DecidableEq, Repr

/-- The registers an offset form reads (R90). -/
def Offset.regs : Offset → List RegNum
  | .imm _ => []
  | .reg rm => [rm]

/-- The value of the offset (R72, R124). -/
def Offset.value (t : Session) : Offset → Word
  | .imm imm12 => imm12.setWidth 32
  | .reg rm => t.reg rm

/-- The effective address: base plus offset, modulo 2^32; the offset is always added (R123, R130). -/
def effectiveAddress (t : Session) (rn : RegNum) (off : Offset) : Word :=
  t.reg rn + off.value t

/-- The byte offset of a branch: the sign-extended field times 4 (R72, R116). -/
def branchOffset (imm24 : BitVec 24) : Word :=
  imm24.signExtend 32 * 4#32

/-- The target of a taken branch at address `ia`, modulo 2^32 (R116). -/
def branchTarget (ia : Word) (imm24 : BitVec 24) : Word :=
  ia + branchOffset imm24 + 8#32

end Sys2Proof.Machine
end

