-- ==== Sys2Proof/Machine/Branch.lean ====
section
/-! DEFINITION. The Branch and BranchExchange classes (spec/43_branch.md R114 to R120). -/

namespace Sys2Proof.Machine

/-- The link write of a taken `bl`: `x[14] <- ia + 4` (R117). -/
def Session.link (t : Session) (link : Bool) : Session :=
  if link then t.setReg RegNum.lr (t.pc + 4#32) else t

/-- `ExecB` under a modelled condition (R118, R119): taken writes the link register if the link bit is set and
jumps; not taken advances by 4. -/
def branch (c : Cond) (link : Bool) (imm24 : BitVec 24) (s : State) : Host.Outcome State Fault Refusal :=
  let t := s.session
  if condHolds t.flags c then
    finish s (.ok ((t.link link).complete .taken (branchTarget t.pc imm24)))
  else
    finish s (.ok (t.complete .notTaken (t.pc + 4#32)))

/-- `beq` (R118). -/
def execBeq (imm24 : BitVec 24) (s : State) : Host.Outcome State Fault Refusal := branch .eq false imm24 s

/-- `bne` (R118). -/
def execBne (imm24 : BitVec 24) (s : State) : Host.Outcome State Fault Refusal := branch .ne false imm24 s

/-- `blt` (R118). -/
def execBlt (imm24 : BitVec 24) (s : State) : Host.Outcome State Fault Refusal := branch .lt false imm24 s

/-- `bgt` (R118). -/
def execBgt (imm24 : BitVec 24) (s : State) : Host.Outcome State Fault Refusal := branch .gt false imm24 s

/-- `bleq` (R118). -/
def execBleq (imm24 : BitVec 24) (s : State) : Host.Outcome State Fault Refusal := branch .eq true imm24 s

/-- `blne` (R118). -/
def execBlne (imm24 : BitVec 24) (s : State) : Host.Outcome State Fault Refusal := branch .ne true imm24 s

/-- `bllt` (R118). -/
def execBllt (imm24 : BitVec 24) (s : State) : Host.Outcome State Fault Refusal := branch .lt true imm24 s

/-- `blgt` (R118). -/
def execBlgt (imm24 : BitVec 24) (s : State) : Host.Outcome State Fault Refusal := branch .gt true imm24 s

/-- A branch under any other condition takes the fault `UnsupportedAddressingMode(Condition)`, whatever the
flags are (R115). -/
def execBranchUnsupported (cond : BitVec 4) (link : BitVec 1) (imm24 : BitVec 24) (s : State) :
    Host.Outcome State Fault Refusal :=
  finish s (.error (s.session.unsupported (encode (.branchUnsupported cond link imm24)) .condition))

/-- `bx Rm`: `pc <- x[m]`, always counted as taken; nothing of the target is checked or cleared (R120). -/
def execBx (cond : BitVec 4) (rm : RegNum) (s : State) : Host.Outcome State Fault Refusal :=
  let t := s.session
  finish s (t.guardPc (encode (.bx cond rm)) [rm] (.ok (t.complete .taken (t.reg rm))))

end Sys2Proof.Machine
end

