-- ==== Sys2Proof/Machine/DataProcessing.lean ====
section
/-! DEFINITION. The DataProcessing class (spec/41_data_processing.md R96 to R101): one definition for each row of
the opcode table, over the shared forms below. The condition, the S bit, the rotate and the shift field are
ignored (R96). -/

namespace Sys2Proof.Machine

/-- A completed data-processing instruction that writes no register: `computation` and `pc + 4` (R96). -/
def Session.completeComputation (t : Session) (ia : Word) : Session :=
  t.complete .computation (ia + 4#32)

/-- SUB: `x[d] <- x[n] - op2` modulo 2^32 (R97). -/
def aluSub (w : Word) (rn rd : RegNum) (op2 : Operand2) (s : State) : Host.Outcome State Fault Refusal :=
  let t := s.session
  finish s (t.guardPc w (rn :: rd :: op2.regs)
    (.ok ((t.setReg rd (t.reg rn - op2.value t)).completeComputation t.pc)))

/-- ADD: `x[d] <- x[n] + op2` modulo 2^32 (R98). -/
def aluAdd (w : Word) (rn rd : RegNum) (op2 : Operand2) (s : State) : Host.Outcome State Fault Refusal :=
  let t := s.session
  finish s (t.guardPc w (rn :: rd :: op2.regs)
    (.ok ((t.setReg rd (t.reg rn + op2.value t)).completeComputation t.pc)))

/-- CMP: all four flags from `CmpFlags(x[n], op2)`, no register written (R99, R104). -/
def aluCmp (w : Word) (rn : RegNum) (op2 : Operand2) (s : State) : Host.Outcome State Fault Refusal :=
  let t := s.session
  finish s (t.guardPc w (rn :: op2.regs)
    (.ok ({ t with flags := cmpFlags (t.reg rn) (op2.value t) }.completeComputation t.pc)))

/-- MOV: `x[d] <- op2` (R100). -/
def aluMov (w : Word) (rd : RegNum) (op2 : Operand2) (s : State) : Host.Outcome State Fault Refusal :=
  let t := s.session
  finish s (t.guardPc w (rd :: op2.regs)
    (.ok ((t.setReg rd (op2.value t)).completeComputation t.pc)))

/-- A no-op opcode: no register, no flag, no `r15` check; it still completes (R101). -/
def aluNoop (s : State) : Host.Outcome State Fault Refusal :=
  finish s (.ok (s.session.completeComputation s.session.pc))

/-- `sub Rd, Rn, #imm8` (R97). -/
def execSubImm (cond : BitVec 4) (sb : BitVec 1) (rn rd : RegNum) (rot : BitVec 4) (imm8 : BitVec 8) (s : State) :
    Host.Outcome State Fault Refusal :=
  aluSub (encode (.subImm cond sb rn rd rot imm8)) rn rd (.imm imm8) s

/-- `sub Rd, Rn, Rm` (R97). -/
def execSubReg (cond : BitVec 4) (sb : BitVec 1) (rn rd : RegNum) (shift : BitVec 8) (rm : RegNum) (s : State) :
    Host.Outcome State Fault Refusal :=
  aluSub (encode (.subReg cond sb rn rd shift rm)) rn rd (.reg rm) s

/-- `add Rd, Rn, #imm8` (R98). -/
def execAddImm (cond : BitVec 4) (sb : BitVec 1) (rn rd : RegNum) (rot : BitVec 4) (imm8 : BitVec 8) (s : State) :
    Host.Outcome State Fault Refusal :=
  aluAdd (encode (.addImm cond sb rn rd rot imm8)) rn rd (.imm imm8) s

/-- `add Rd, Rn, Rm` (R98). -/
def execAddReg (cond : BitVec 4) (sb : BitVec 1) (rn rd : RegNum) (shift : BitVec 8) (rm : RegNum) (s : State) :
    Host.Outcome State Fault Refusal :=
  aluAdd (encode (.addReg cond sb rn rd shift rm)) rn rd (.reg rm) s

/-- `cmp Rn, #imm8` (R99). -/
def execCmpImm (cond : BitVec 4) (sb : BitVec 1) (rn rd : RegNum) (rot : BitVec 4) (imm8 : BitVec 8) (s : State) :
    Host.Outcome State Fault Refusal :=
  aluCmp (encode (.cmpImm cond sb rn rd rot imm8)) rn (.imm imm8) s

/-- `cmp Rn, Rm` (R99). -/
def execCmpReg (cond : BitVec 4) (sb : BitVec 1) (rn rd : RegNum) (shift : BitVec 8) (rm : RegNum) (s : State) :
    Host.Outcome State Fault Refusal :=
  aluCmp (encode (.cmpReg cond sb rn rd shift rm)) rn (.reg rm) s

/-- `mov Rd, #imm8` (R100). -/
def execMovImm (cond : BitVec 4) (sb : BitVec 1) (rn rd : RegNum) (rot : BitVec 4) (imm8 : BitVec 8) (s : State) :
    Host.Outcome State Fault Refusal :=
  aluMov (encode (.movImm cond sb rn rd rot imm8)) rd (.imm imm8) s

/-- `mov Rd, Rm` (R100). -/
def execMovReg (cond : BitVec 4) (sb : BitVec 1) (rn rd : RegNum) (shift : BitVec 8) (rm : RegNum) (s : State) :
    Host.Outcome State Fault Refusal :=
  aluMov (encode (.movReg cond sb rn rd shift rm)) rd (.reg rm) s

/-- Opcode 0000 (R101). -/
def execNoopAnd (s : State) : Host.Outcome State Fault Refusal := aluNoop s

/-- Opcode 0001 (R101). -/
def execNoopEor (s : State) : Host.Outcome State Fault Refusal := aluNoop s

/-- Opcode 0011 (R101). -/
def execNoopRsb (s : State) : Host.Outcome State Fault Refusal := aluNoop s

/-- Opcode 0101 (R101). -/
def execNoopAdc (s : State) : Host.Outcome State Fault Refusal := aluNoop s

/-- Opcode 0110 (R101). -/
def execNoopSbc (s : State) : Host.Outcome State Fault Refusal := aluNoop s

/-- Opcode 0111 (R101). -/
def execNoopRsc (s : State) : Host.Outcome State Fault Refusal := aluNoop s

/-- Opcode 1000 (R101). -/
def execNoopTst (s : State) : Host.Outcome State Fault Refusal := aluNoop s

/-- Opcode 1001 (R101). -/
def execNoopTeq (s : State) : Host.Outcome State Fault Refusal := aluNoop s

/-- Opcode 1011 (R101). -/
def execNoopCmn (s : State) : Host.Outcome State Fault Refusal := aluNoop s

/-- Opcode 1100 (R101). -/
def execNoopOrr (s : State) : Host.Outcome State Fault Refusal := aluNoop s

/-- Opcode 1110 (R101). -/
def execNoopBic (s : State) : Host.Outcome State Fault Refusal := aluNoop s

/-- Opcode 1111 (R101). -/
def execNoopMvn (s : State) : Host.Outcome State Fault Refusal := aluNoop s

end Sys2Proof.Machine
end

