-- ==== Sys2Proof/Machine/Multiply.lean ====
section
/-! DEFINITION. The Multiply class (spec/42_multiply.md R109 to R113). -/

namespace Sys2Proof.Machine

/-- `mul Rd, Rm, Rs`: the low 32 bits of the product; no flag, no accumulation (R109, R111). -/
def execMul (cond : BitVec 4) (acc : BitVec 2) (rd ra rs rm : RegNum) (s : State) :
    Host.Outcome State Fault Refusal :=
  let t := s.session
  let product := BitVec.ofNat 32 ((t.reg rm).toNat * (t.reg rs).toNat)
  finish s (t.guardPc (encode (.mul cond acc rd ra rs rm)) [rm, rs, rd]
    (.ok ((t.setReg rd product).complete .computation (t.pc + 4#32))))

end Sys2Proof.Machine
end

