-- ==== Sys2Proof/Machine/Transfer.lean ====
section
/-! DEFINITION. The SingleDataTransfer class (spec/44_load_store.md R123 to R132). The checks come in the order
of R125: `r15` fields, then alignment, then bounds, all before any change. P, U and W are ignored (R130). -/

namespace Sys2Proof.Machine

/-- A load's last steps: the destination, `memory`, `pc + 4` (R123, R126, R127). -/
def Session.completeLoad (t : Session) (rd : RegNum) : Except StepFault Word → Except StepFault Session
  | .ok v => .ok ((t.setReg rd v).complete .memory (t.pc + 4#32))
  | .error f => .error f

/-- A store's last steps: `memory`, `pc + 4` (R123, R128). `ia` is the address of the store. -/
def completeStore (ia : Word) : Except StepFault Session → Except StepFault Session
  | .ok t => .ok (t.complete .memory (ia + 4#32))
  | .error f => .error f

/-- LDR: the word at the effective address (R126). -/
def loadWord (w : Word) (rn rd : RegNum) (off : Offset) (s : State) : Host.Outcome State Fault Refusal :=
  let t := s.session
  finish s (t.guardPc w (rn :: rd :: off.regs)
    (t.completeLoad rd (t.memReadWord .load (effectiveAddress t rn off))))

/-- LDRB: the zero-extended byte at the effective address (R127). -/
def loadByte (w : Word) (rn rd : RegNum) (off : Offset) (s : State) : Host.Outcome State Fault Refusal :=
  let t := s.session
  finish s (t.guardPc w (rn :: rd :: off.regs)
    (t.completeLoad rd (t.memReadByte .load (effectiveAddress t rn off))))

/-- STR: the register's word to the effective address (R128). -/
def storeWord (w : Word) (rn rd : RegNum) (off : Offset) (s : State) : Host.Outcome State Fault Refusal :=
  let t := s.session
  finish s (t.guardPc w (rn :: rd :: off.regs)
    (completeStore t.pc (t.memWriteWord (effectiveAddress t rn off) (t.reg rd))))

/-- `ldr Rd, [Rn, #imm12]` (R126). -/
def execLdrImm (cond : BitVec 4) (p u w : BitVec 1) (rn rd : RegNum) (imm12 : BitVec 12) (s : State) :
    Host.Outcome State Fault Refusal :=
  loadWord (encode (.ldrImm cond p u w rn rd imm12)) rn rd (.imm imm12) s

/-- `ldr Rd, [Rn, Rm]` (R126). -/
def execLdrReg (cond : BitVec 4) (p u w : BitVec 1) (rn rd : RegNum) (shift : BitVec 8) (rm : RegNum) (s : State) :
    Host.Outcome State Fault Refusal :=
  loadWord (encode (.ldrReg cond p u w rn rd shift rm)) rn rd (.reg rm) s

/-- `ldrb Rd, [Rn, #imm12]` (R127). -/
def execLdrbImm (cond : BitVec 4) (p u w : BitVec 1) (rn rd : RegNum) (imm12 : BitVec 12) (s : State) :
    Host.Outcome State Fault Refusal :=
  loadByte (encode (.ldrbImm cond p u w rn rd imm12)) rn rd (.imm imm12) s

/-- `ldrb Rd, [Rn, Rm]` (R127). -/
def execLdrbReg (cond : BitVec 4) (p u w : BitVec 1) (rn rd : RegNum) (shift : BitVec 8) (rm : RegNum) (s : State) :
    Host.Outcome State Fault Refusal :=
  loadByte (encode (.ldrbReg cond p u w rn rd shift rm)) rn rd (.reg rm) s

/-- `str Rd, [Rn, #imm12]` (R128). -/
def execStrImm (cond : BitVec 4) (p u w : BitVec 1) (rn rd : RegNum) (imm12 : BitVec 12) (s : State) :
    Host.Outcome State Fault Refusal :=
  storeWord (encode (.strImm cond p u w rn rd imm12)) rn rd (.imm imm12) s

/-- `str Rd, [Rn, Rm]` (R128). -/
def execStrReg (cond : BitVec 4) (p u w : BitVec 1) (rn rd : RegNum) (shift : BitVec 8) (rm : RegNum) (s : State) :
    Host.Outcome State Fault Refusal :=
  storeWord (encode (.strReg cond p u w rn rd shift rm)) rn rd (.reg rm) s

/-- The byte store takes the fault `UnsupportedAddressingMode(ByteStore)` before every other check (R129). -/
def execStrbUnsupported (cond : BitVec 4) (i p u w : BitVec 1) (rn rd : RegNum) (offset : BitVec 12) (s : State) :
    Host.Outcome State Fault Refusal :=
  finish s (.error (s.session.unsupported (encode (.strbUnsupported cond i p u w rn rd offset)) .byteStore))

end Sys2Proof.Machine
end

