-- ==== Sys2Proof/Machine/Unknown.lean ====
section
/-! DEFINITION. The Unknown class (spec/60_exceptions.md R136): an explicit failure, never a silent no-op. -/

namespace Sys2Proof.Machine

/-- `raise UnknownInstruction(pc = ia, word = w)` (R136). -/
def unknownWord (w : Word) (s : State) : Host.Outcome State Fault Refusal :=
  finish s (.error (.unknownInstruction s.session.pc w))

/-- Bits 27:25 = 100 (R63, R136). -/
def execUnknown100 (cond : BitVec 4) (rest : BitVec 25) (s : State) : Host.Outcome State Fault Refusal :=
  unknownWord (encode (.unknown100 cond rest)) s

/-- Bits 27:26 = 11 (R63, R136). -/
def execUnknown11 (cond : BitVec 4) (rest : BitVec 26) (s : State) : Host.Outcome State Fault Refusal :=
  unknownWord (encode (.unknown11 cond rest)) s

end Sys2Proof.Machine
end

