-- ==== Sys2Proof/Machine/Dispatch.lean ====
section
/-! DEFINITION. What each instruction does: one arm per constructor of Instr, each a direct call of its meaning
(spec/40_execution_cycle.md R79, R82). -/

namespace Sys2Proof.Machine

def exec (i : Instr) (s : State) : Host.Outcome State Fault Refusal :=
  match i with
  | .bx cond rm => Sys2Proof.Machine.execBx cond rm s
  | .beq imm24 => Sys2Proof.Machine.execBeq imm24 s
  | .bne imm24 => Sys2Proof.Machine.execBne imm24 s
  | .blt imm24 => Sys2Proof.Machine.execBlt imm24 s
  | .bgt imm24 => Sys2Proof.Machine.execBgt imm24 s
  | .bleq imm24 => Sys2Proof.Machine.execBleq imm24 s
  | .blne imm24 => Sys2Proof.Machine.execBlne imm24 s
  | .bllt imm24 => Sys2Proof.Machine.execBllt imm24 s
  | .blgt imm24 => Sys2Proof.Machine.execBlgt imm24 s
  | .branchUnsupported cond link imm24 => Sys2Proof.Machine.execBranchUnsupported cond link imm24 s
  | .mul cond acc rd ra rs rm => Sys2Proof.Machine.execMul cond acc rd ra rs rm s
  | .subImm cond sb rn rd rot imm8 => Sys2Proof.Machine.execSubImm cond sb rn rd rot imm8 s
  | .subReg cond sb rn rd shift rm => Sys2Proof.Machine.execSubReg cond sb rn rd shift rm s
  | .addImm cond sb rn rd rot imm8 => Sys2Proof.Machine.execAddImm cond sb rn rd rot imm8 s
  | .addReg cond sb rn rd shift rm => Sys2Proof.Machine.execAddReg cond sb rn rd shift rm s
  | .cmpImm cond sb rn rd rot imm8 => Sys2Proof.Machine.execCmpImm cond sb rn rd rot imm8 s
  | .cmpReg cond sb rn rd shift rm => Sys2Proof.Machine.execCmpReg cond sb rn rd shift rm s
  | .movImm cond sb rn rd rot imm8 => Sys2Proof.Machine.execMovImm cond sb rn rd rot imm8 s
  | .movReg cond sb rn rd shift rm => Sys2Proof.Machine.execMovReg cond sb rn rd shift rm s
  | .noopAnd _ _ _ _ _ _ => Sys2Proof.Machine.execNoopAnd s
  | .noopEor _ _ _ _ _ _ => Sys2Proof.Machine.execNoopEor s
  | .noopRsb _ _ _ _ _ _ => Sys2Proof.Machine.execNoopRsb s
  | .noopAdc _ _ _ _ _ _ => Sys2Proof.Machine.execNoopAdc s
  | .noopSbc _ _ _ _ _ _ => Sys2Proof.Machine.execNoopSbc s
  | .noopRsc _ _ _ _ _ _ => Sys2Proof.Machine.execNoopRsc s
  | .noopTst _ _ _ _ _ _ => Sys2Proof.Machine.execNoopTst s
  | .noopTeq _ _ _ _ _ _ => Sys2Proof.Machine.execNoopTeq s
  | .noopCmn _ _ _ _ _ _ => Sys2Proof.Machine.execNoopCmn s
  | .noopOrr _ _ _ _ _ _ => Sys2Proof.Machine.execNoopOrr s
  | .noopBic _ _ _ _ _ _ => Sys2Proof.Machine.execNoopBic s
  | .noopMvn _ _ _ _ _ _ => Sys2Proof.Machine.execNoopMvn s
  | .ldrImm cond p u w rn rd imm12 => Sys2Proof.Machine.execLdrImm cond p u w rn rd imm12 s
  | .ldrReg cond p u w rn rd shift rm => Sys2Proof.Machine.execLdrReg cond p u w rn rd shift rm s
  | .ldrbImm cond p u w rn rd imm12 => Sys2Proof.Machine.execLdrbImm cond p u w rn rd imm12 s
  | .ldrbReg cond p u w rn rd shift rm => Sys2Proof.Machine.execLdrbReg cond p u w rn rd shift rm s
  | .strImm cond p u w rn rd imm12 => Sys2Proof.Machine.execStrImm cond p u w rn rd imm12 s
  | .strReg cond p u w rn rd shift rm => Sys2Proof.Machine.execStrReg cond p u w rn rd shift rm s
  | .strbUnsupported cond ibit p u w rn rd offset => Sys2Proof.Machine.execStrbUnsupported cond ibit p u w rn rd offset s
  | .unknown100 cond rest => Sys2Proof.Machine.execUnknown100 cond rest s
  | .unknown11 cond rest => Sys2Proof.Machine.execUnknown11 cond rest s

end Sys2Proof.Machine
end

