-- ==== Sys2Proof/Machine/Cycle.lean ====
section
/-! DEFINITION. The driver loop's step (spec/40_execution_cycle.md R77 to R88): halt, ceiling, fetch, cache
access, decode, execute, with a faulting step committing nothing. -/

namespace Sys2Proof.Machine

/-- Fetch: the word at `pc`, with access kind fetch (R80). It reads memory as it is now (R52). -/
def Session.fetch (t : Session) : Except StepFault Word :=
  t.memReadWord .fetch t.pc

/-- A step whose handler raised a fault commits nothing, the cache access included: the state is the state
before the step, with the status `Failed` (R88, R134). -/
def commit (s : State) : Host.Outcome State Fault Refusal → Host.Outcome State Fault Refusal
  | .next t =>
    match t.status with
    | .failed record => .next (raise s record.fault)
    | _ => .next t
  | o => o

/-- The cache access and the handler of a fetched word (R79, R81, R82). -/
def runWord (s : State) (w : Word) : Host.Outcome State Fault Refusal :=
  commit s (exec (decodeWord w) { s with session := s.session.cacheAccess s.session.pc })

/-- The step of a running session, its checks in the order of R87 and R142. -/
def runningStep (s : State) : Host.Outcome State Fault Refusal :=
  let t := s.session
  if t.pc = 0#32 then .next { s with status := .halted }
  else if t.cfg.maxInsns ≤ t.completed then .next (raise s (.nonTerminating t.pc))
  else
    match t.fetch with
    | .error f => .next (raise s f)
    | .ok w => runWord s w

/-- One step. A session that has ended takes none (R33): the host is told how it ended (log 1). -/
def cycle (s : State) : Host.Outcome State Fault Refusal :=
  match s.status with
  | .running => runningStep s
  | .halted => .fault (.sessionHalted (s.session.reg 0#4))
  | .failed record => .fault (.sessionFailed record)

end Sys2Proof.Machine
end

