-- ==== Sys2Proof/Machine/Step.lean ====
section
/-! DEFINITION. The machine's step, and how the host places an instruction where the step fetches. -/

namespace Sys2Proof.Machine

/-- One step of the machine (spec/40_execution_cycle.md R79). -/
def step (s : State) : Host.Outcome State Fault Refusal :=
  cycle s

/-- The state with the table's word `w` of `nbits` bits in memory at the program counter, where the next step
fetches. It stands for a CODE that construction loads (log 9); nothing else changes. -/
def State.withFetchWord (s : State) (nbits w : Nat) : State :=
  { s with session := { s.session with
      mem := s.session.mem.writeWord s.session.pc.toNat (tableWord nbits w) } }

end Sys2Proof.Machine
end

