-- ==== Sys2Proof/Machine/Construct.lean ====
section
/-! DEFINITION. Session construction, the core's only reset (spec/70_reset_and_hazards.md R151, R152). -/

namespace Sys2Proof.Machine

/-- The inputs of construction (spec/00_scope.md R9). `initRegs` holds `r4` to `r12`, in order. -/
structure Params where
  code : List Byte
  stackSize : Nat
  args : Vector Word 4
  cacheSize : Nat
  imageBase : Nat
  maxInsns : Nat
  initRegs : Vector Word 9
  initFlags : Flags
  deriving DecidableEq, Repr

/-- The parameter an `InvalidConfiguration` fault names (R141, R152). -/
inductive ConfigReason where
  /-- CACHE_SIZE is no power of two. Raised by `construct`; safe. -/
  | cacheSize
  /-- STACK_SIZE is no multiple of 4. Raised by `construct`; safe. -/
  | stackSize
  /-- IMAGE_BASE is 0 or no multiple of 4. Raised by `construct`; safe. -/
  | imageBase
  /-- The image ends above 2^32. Raised by `construct`; safe. -/
  | imageEnd
  deriving DecidableEq, Repr

/-- CODE_SIZE: the code's length rounded up to a multiple of 4 (R37). -/
def codeSizeOf (code : List Byte) : Nat :=
  4 * ((code.length + 3) / 4)

/-- The memory that holds `bytes` from `base` on; zero bytes are not listed. -/
def Memory.ofBytes : Nat → List Byte → Memory
  | _, [] => []
  | base, b :: bytes =>
    if b = 0#8 then Memory.ofBytes (base + 1) bytes else (base, b) :: Memory.ofBytes (base + 1) bytes

/-- The parameters the session keeps (R9, R37). -/
def Params.config (p : Params) : SessionConfig where
  imageBase := p.imageBase
  codeSize := codeSizeOf p.code
  stackSize := p.stackSize
  maxInsns := p.maxInsns

/-- The registers after construction: arguments, initial registers, stack pointer one past the image, link
register 0, program counter at the code (R31, R151). An image end (or an empty image's base) of
2^32 wraps to 0 (log 7). -/
def Params.registers (p : Params) : Vector Word 16 :=
  #v[p.args[0], p.args[1], p.args[2], p.args[3],
     p.initRegs[0], p.initRegs[1], p.initRegs[2], p.initRegs[3], p.initRegs[4],
     p.initRegs[5], p.initRegs[6], p.initRegs[7], p.initRegs[8],
     BitVec.ofNat 32 p.config.imageEnd, 0#32, BitVec.ofNat 32 p.imageBase]

/-- The state construction gives once its checks have passed (R31, R151). The tag of an invalid slot is
unspecified and never read; the model puts 0 there (log 6). -/
def Params.initial (p : Params) : State where
  session := {
    x := p.registers
    flags := p.initFlags
    cnt := { computation := 0, memory := 0, taken := 0, notTaken := 0 }
    mem := Memory.ofBytes p.imageBase p.code
    icache := {
      slots := List.replicate p.cacheSize { valid := false, tag := 0#32 }
      requests := 0
      hits := 0
      misses := 0 }
    cfg := p.config }
  status := .running

/-- Construction: the checks of R152, in the order of its table (log 8), then the initial state (R151). -/
def construct (p : Params) : Except ConfigReason State :=
  if ¬ PowerOfTwo p.cacheSize then .error .cacheSize
  else if p.stackSize % 4 ≠ 0 then .error .stackSize
  else if p.imageBase % 4 ≠ 0 ∨ p.imageBase = 0 then .error .imageBase
  else if p.config.imageEnd > 2 ^ 32 then .error .imageEnd
  else .ok p.initial

/-- The inputs of the reference session (log 2 to log 6). -/
def referenceParams : Params where
  code := []
  stackSize := Config.referenceStackSize
  args := Vector.replicate 4 0#32
  cacheSize := Config.referenceCacheSize
  imageBase := Config.referenceImageBase
  maxInsns := Config.referenceMaxInsns
  initRegs := Vector.replicate 9 0#32
  initFlags := { n := false, z := false, c := false, v := false }

end Sys2Proof.Machine
end

