-- ==== Sys2Proof/Machine/Run.lean ====
section
/-! DEFINITION. Run-to-completion, the one way a caller executes a session (spec/40_execution_cycle.md R78,
spec/70_reset_and_hazards.md R154). -/

namespace Sys2Proof.Machine

/-- What run-to-completion returns (R78): the result register with the final state, or the typed failure. -/
inductive RunResult where
  | halted (result : Word) (final : State)
  | failed (record : FaultRecord)
  deriving DecidableEq, Repr

/-- Steps applied while the session runs, at most `fuel` of them; `none` if it still runs then (R78). -/
def runFor : Nat → State → Option RunResult
  | fuel, s =>
    match s.status with
    | .halted => some (.halted (s.session.reg 0#4) s)
    | .failed record => some (.failed record)
    | .running =>
      match fuel with
      | 0 => none
      | fuel + 1 =>
        match step s with
        | .next t => runFor fuel t
        | .fault _ => none
        | .refused _ => none

/-- Run-to-completion (R78, R154). At most MAX_INSNS instructions complete and one more step ends the run
(R86), so the fuel is enough for every session. -/
def runToCompletion (s : State) : Option RunResult :=
  runFor (s.session.cfg.maxInsns + 1) s

/-- Construction and run-to-completion of one session (R151, R154). -/
def runSession (p : Params) : Except ConfigReason (Option RunResult) :=
  match construct p with
  | .ok s => .ok (runToCompletion s)
  | .error reason => .error reason

end Sys2Proof.Machine
end

