-- ==== Sys2Proof/Safety.lean ====
section
/-! DEFINITION. The terms the claims are stated in: the invariant of a session, what an instruction may change,
and the spec's own words for the conditions and the written registers. Nothing here is read by the machine. -/

namespace Sys2Proof.Machine

/-! ### The invariant -/

/-- The session parameters meet the constraints construction checks (R9, R37, R152). -/
def SessionConfig.Valid (c : SessionConfig) : Prop :=
  c.imageBase % 4 = 0 ∧ c.imageBase ≠ 0 ∧ c.codeSize % 4 = 0 ∧ c.stackSize % 4 = 0 ∧ c.imageEnd ≤ 2 ^ 32

/-- What holds of a session at construction and after every step: the parameters are legal (R152), memory is
canonical and lies inside the image (R35, R37), the cache model has a legal size and its counters add up (R56,
R58), the counters stay below the ceiling (R86), a halted session stands at the sentinel (R84), and a failed
one is unchanged since the state its record reports (R88). -/
structure State.Inv (s : State) : Prop where
  config : s.session.cfg.Valid
  memory : Memory.wf s.session.mem
  image : ∀ c ∈ s.session.mem, s.session.cfg.imageBase ≤ c.1 ∧ c.1 < s.session.cfg.imageEnd
  cacheSize : PowerOfTwo s.session.icache.size
  outcomes : s.session.icache.requests = s.session.icache.hits + s.session.icache.misses
  fetches : s.session.icache.requests = s.session.completed
  ceiling : s.session.completed ≤ s.session.cfg.maxInsns
  halted : s.status = .halted → s.session.pc = 0#32
  failed : ∀ r, s.status = .failed r → r.state = s.session

/-- A run is safe when no state it reaches has failed. -/
def State.SafeRun (s : State) : Prop :=
  ∀ n t, Host.Core.run core n s = .next t → ∀ r, t.status ≠ .failed r

/-! ### What an instruction may change -/

/-- The outcome of a step that raises `f` at `s`: nothing but the status changes (R88, R134, R144). -/
def failsWith (s : State) (f : StepFault) : Host.Outcome State Fault Refusal :=
  .next { session := s.session, status := .failed { fault := f, state := s.session } }

/-- The fault with another raw word in its record, where the record has one (R134). -/
def StepFault.withWord (f : StepFault) (w : Word) : StepFault :=
  match f with
  | .unknownInstruction pc _ => .unknownInstruction pc w
  | .outOfBounds pc a k => .outOfBounds pc a k
  | .unsupportedAddressingMode pc _ r => .unsupportedAddressingMode pc w r
  | .nonTerminating pc => .nonTerminating pc
  | .misalignedAccess pc a k => .misalignedAccess pc a k

/-- Every register but those listed is unchanged. -/
def RegsKeptBut (rs : List RegNum) (a b : Session) : Prop :=
  ∀ r, r ∉ rs → b.reg r = a.reg r

/-- Every byte of memory is unchanged. -/
def MemoryKept (a b : Session) : Prop :=
  ∀ addr : Nat, b.mem.read addr = a.mem.read addr

/-- Every byte of memory outside the four at `lo` is unchanged. -/
def MemoryKeptOutsideWord (lo : Nat) (a b : Session) : Prop :=
  ∀ addr : Nat, addr < lo ∨ lo + 4 ≤ addr → b.mem.read addr = a.mem.read addr

/-- The cache model and the session parameters are unchanged. -/
def RestKept (a b : Session) : Prop :=
  b.icache = a.icache ∧ b.cfg = a.cfg

/-- The four instruction counters grew by these amounts (R26). -/
def CountersGrew (computation memory taken notTaken : Nat) (a b : Session) : Prop :=
  b.cnt.computation = a.cnt.computation + computation ∧ b.cnt.memory = a.cnt.memory + memory ∧
    b.cnt.taken = a.cnt.taken + taken ∧ b.cnt.notTaken = a.cnt.notTaken + notTaken

/-- A completed data-processing or multiply instruction that writes the registers `rs` and nothing else:
`computation` grows by 1 and the program counter by 4 (R96, R113). Flags are stated apart. -/
def Computes (rs : List RegNum) (a b : Session) : Prop :=
  RegsKeptBut (RegNum.pc :: rs) a b ∧ b.pc = a.pc + 4#32 ∧ MemoryKept a b ∧ RestKept a b ∧ CountersGrew 1 0 0 0 a b

/-- A completed load that writes the register `rd` and nothing else: `memory` grows by 1 and the program
counter by 4 (R132). -/
def Loads (rd : RegNum) (a b : Session) : Prop :=
  RegsKeptBut [RegNum.pc, rd] a b ∧ b.pc = a.pc + 4#32 ∧ b.flags = a.flags ∧ MemoryKept a b ∧ RestKept a b ∧
    CountersGrew 0 1 0 0 a b

/-- A completed store of the word `v` at address `ea` that changes nothing else (R128, R132). -/
def Stores (ea : Nat) (v : Word) (a b : Session) : Prop :=
  RegsKeptBut [RegNum.pc] a b ∧ b.pc = a.pc + 4#32 ∧ b.flags = a.flags ∧
    b.mem.read ea = v.extractLsb' 0 8 ∧ b.mem.read (ea + 1) = v.extractLsb' 8 8 ∧
    b.mem.read (ea + 2) = v.extractLsb' 16 8 ∧ b.mem.read (ea + 3) = v.extractLsb' 24 8 ∧
    MemoryKeptOutsideWord ea a b ∧ RestKept a b ∧ CountersGrew 0 1 0 0 a b

/-! ### The spec's words for branches and destinations -/

/-- When each condition is taken, in the words of R114. -/
def CondMeaning (f : Flags) : Cond → Prop
  | .eq => f.z = true
  | .ne => f.z = false
  | .lt => f.n ≠ f.v
  | .gt => f.z = false ∧ f.n = f.v

/-- The eight modelled branch instructions by condition and link bit (R71, R118). -/
def branchInstr (c : Cond) (link : Bool) (imm24 : BitVec 24) : Instr :=
  match c, link with
  | .eq, false => .beq imm24
  | .ne, false => .bne imm24
  | .lt, false => .blt imm24
  | .gt, false => .bgt imm24
  | .eq, true => .bleq imm24
  | .ne, true => .blne imm24
  | .lt, true => .bllt imm24
  | .gt, true => .blgt imm24

/-- The twelve no-op instructions of data processing, one for each opcode of R101. -/
def noopInstrs (cond : BitVec 4) (i sb : BitVec 1) (rn rd : RegNum) (op2 : BitVec 12) : List Instr :=
  [.noopAnd cond i sb rn rd op2, .noopEor cond i sb rn rd op2, .noopRsb cond i sb rn rd op2,
   .noopAdc cond i sb rn rd op2, .noopSbc cond i sb rn rd op2, .noopRsc cond i sb rn rd op2,
   .noopTst cond i sb rn rd op2, .noopTeq cond i sb rn rd op2, .noopCmn cond i sb rn rd op2,
   .noopOrr cond i sb rn rd op2, .noopBic cond i sb rn rd op2, .noopMvn cond i sb rn rd op2]

/-- The registers of `r0` to `r14` an instruction may write: its destination, and `r14` for a linking branch
(R16, R92). -/
def writtenRegs : Instr → List RegNum
  | .subImm _ _ _ rd _ _ | .addImm _ _ _ rd _ _ | .movImm _ _ _ rd _ _ => [rd]
  | .subReg _ _ _ rd _ _ | .addReg _ _ _ rd _ _ | .movReg _ _ _ rd _ _ => [rd]
  | .mul _ _ rd _ _ _ => [rd]
  | .ldrImm _ _ _ _ _ rd _ | .ldrbImm _ _ _ _ _ rd _ => [rd]
  | .ldrReg _ _ _ _ _ rd _ _ | .ldrbReg _ _ _ _ _ rd _ _ => [rd]
  | .bleq _ | .blne _ | .bllt _ | .blgt _ => [RegNum.lr]
  | .bx _ _ | .beq _ | .bne _ | .blt _ | .bgt _ | .branchUnsupported _ _ _ => []
  | .cmpImm _ _ _ _ _ _ | .cmpReg _ _ _ _ _ _ => []
  | .noopAnd _ _ _ _ _ _ | .noopEor _ _ _ _ _ _ | .noopRsb _ _ _ _ _ _ | .noopAdc _ _ _ _ _ _ => []
  | .noopSbc _ _ _ _ _ _ | .noopRsc _ _ _ _ _ _ | .noopTst _ _ _ _ _ _ | .noopTeq _ _ _ _ _ _ => []
  | .noopCmn _ _ _ _ _ _ | .noopOrr _ _ _ _ _ _ | .noopBic _ _ _ _ _ _ | .noopMvn _ _ _ _ _ _ => []
  | .strImm _ _ _ _ _ _ _ | .strReg _ _ _ _ _ _ _ _ | .strbUnsupported _ _ _ _ _ _ _ _ => []
  | .unknown100 _ _ | .unknown11 _ _ => []

/-! ### What a program can observe -/

/-- The session with its cache model blanked out: all a program can observe (R30). -/
def Session.withoutCache (t : Session) : Session :=
  { t with icache := { slots := [], requests := 0, hits := 0, misses := 0 } }

/-- The status with the cache model of its record blanked out. -/
def Status.withoutCache : Status → Status
  | .running => .running
  | .halted => .halted
  | .failed r => .failed { r with state := r.state.withoutCache }

/-- The outcome of a step with every cache model in it blanked out. -/
def outcomeWithoutCache : Host.Outcome State Fault Refusal → Host.Outcome State Fault Refusal
  | .next t => .next { session := t.session.withoutCache, status := t.status.withoutCache }
  | .fault (.sessionFailed r) => .fault (.sessionFailed { r with state := r.state.withoutCache })
  | .fault (.sessionHalted v) => .fault (.sessionHalted v)
  | .refused r => .refused r

/-- How a run ended, as its caller can tell without the statistics: the result, or the fault. -/
inductive Ending where
  | halted (result : Word)
  | failed (fault : StepFault)
  deriving DecidableEq, Repr

/-- The ending of a run's result (R78). -/
def RunResult.ending : RunResult → Ending
  | .halted result _ => .halted result
  | .failed record => .failed record.fault

/-- The session a run ended with: the final state, or the state before the faulting step (R78, R134). -/
def RunResult.session : RunResult → Session
  | .halted _ final => final.session
  | .failed record => record.state

/-- The addresses `a`, `b`, `a`, … alternating, `n` of them. -/
def alternating : Nat → Word → Word → List Word
  | 0, _, _ => []
  | n + 1, a, b => a :: alternating n b a

end Sys2Proof.Machine
end

