-- ==== Sys2Proof/Certificates/Slice0/Obligations.lean ====
section
/-! DEFINITION. The statements about the machine, for the provers. Each says which rules of spec/ it comes from;
where a clause rests on a decision the spec marks as its own ([decision …], [derived …], general knowledge) or on
an entry of the model's log, the docstring says so. -/

open Sys2Proof Sys2Proof.Machine

/-! ### Encoding and decoding -/

/-- Words written out by hand from R64 to R71 decode to the instructions they stand for: `bx lr`, `beq` to itself,
`bleq`, a branch under AL, `mul r0, r1, r2`, `sub r0, r0, r1`, `add r0, r0, #255` with a rotate field,
`cmp r0, #0`, `mov r0, #1`, the all-zero word, `ldr r3, [r0, #4]`, `ldr r3, [r0, r1]`, `ldrb`, `str`, a byte store,
and the two Unknown words of V-DEC-8 and V-DEC-9. The opcode and condition numbers are the spec's from general
knowledge (R68, R71; log 13). -/
def Obligations.SampleWordsDecode : Prop :=
  decodeWord 0xE12FFF1E#32 = .bx 14#4 14#4 ∧
  decodeWord 0x0AFFFFFE#32 = .beq 0xFFFFFE#24 ∧
  decodeWord 0x0B000004#32 = .bleq 4#24 ∧
  decodeWord 0xEA000000#32 = .branchUnsupported 14#4 0#1 0#24 ∧
  decodeWord 0xE0000291#32 = .mul 14#4 0#2 0#4 0#4 2#4 1#4 ∧
  decodeWord 0xE0400001#32 = .subReg 14#4 0#1 0#4 0#4 0#8 1#4 ∧
  decodeWord 0xE2800CFF#32 = .addImm 14#4 0#1 0#4 0#4 12#4 255#8 ∧
  decodeWord 0xE3500000#32 = .cmpImm 14#4 1#1 0#4 0#4 0#4 0#8 ∧
  decodeWord 0xE3A00001#32 = .movImm 14#4 0#1 0#4 0#4 0#4 1#8 ∧
  decodeWord 0x00000000#32 = .noopAnd 0#4 0#1 0#1 0#4 0#4 0#12 ∧
  decodeWord 0xE7903004#32 = .ldrImm 14#4 1#1 1#1 0#1 0#4 3#4 4#12 ∧
  decodeWord 0xE5903001#32 = .ldrReg 14#4 1#1 1#1 0#1 0#4 3#4 0#8 1#4 ∧
  decodeWord 0xE7D03004#32 = .ldrbImm 14#4 1#1 1#1 0#1 0#4 3#4 4#12 ∧
  decodeWord 0xE7803008#32 = .strImm 14#4 1#1 1#1 0#1 0#4 3#4 8#12 ∧
  decodeWord 0xE7C03004#32 = .strbUnsupported 14#4 1#1 1#1 1#1 0#1 0#4 3#4 4#12 ∧
  decodeWord 0xE92D4000#32 = .unknown100 14#4 0x12D4000#25 ∧
  decodeWord 0xEF000000#32 = .unknown11 14#4 0x3000000#26

/-- Decoding the encoding of a well-formed instruction gives it back, every operand at every value, through
the words and through the bytes as memory holds them (R59, R62, R64 to R71). -/
def Obligations.DecodeOfEncode : Prop :=
  ∀ i : Instr, i.wf = true →
    decodeWord (encode i) = i ∧ ∀ rest, decode (wordBytes (encode i) ++ rest) = .ok (i, rest)

/-- Every one of the 2^32 words decodes to a well-formed instruction whose encoding is that word: no bit is lost,
and no word has two meanings (R62, "every one of the 2^32 words gets exactly one class"). -/
def Obligations.EncodeOfDecode : Prop :=
  ∀ w : Word, (decodeWord w).wf = true ∧ encode (decodeWord w) = w

/-- The Unknown class is exactly the words with bits 27:25 = 100 or bits 27:26 = 11, and the branch-exchange and
multiply patterns lie in the data-processing space (R63, which the spec derives from R62). -/
def Obligations.UnknownClassExact : Prop :=
  ∀ w : Word,
    (classify w = .unknown ↔ (w.extractLsb' 25 3 = 0b100#3 ∨ w.extractLsb' 26 2 = 0b11#2)) ∧
    (classify w = .branchExchange → w.extractLsb' 26 2 = 0b00#2) ∧
    (classify w = .multiply → w.extractLsb' 26 2 = 0b00#2) ∧
    (w.extractLsb' 25 3 = 0b101#3 → classify w = .branch) ∧
    (w.extractLsb' 26 2 = 0b01#2 → classify w = .singleDataTransfer)

/-- The fields of the branch-exchange, multiply and branch formats are read from the bits R64, R65 and R66 give
them; the condition numbers are the spec's from general knowledge (R71; log 13). -/
def Obligations.BranchAndMultiplyFieldsRead : Prop :=
  ∀ w : Word,
    (w.extractLsb' 4 24 = 0x12FFF1#24 → decodeWord w = .bx (w.extractLsb' 28 4) (w.extractLsb' 0 4)) ∧
    (w.extractLsb' 22 6 = 0#6 → w.extractLsb' 4 4 = 0b1001#4 →
      decodeWord w = .mul (w.extractLsb' 28 4) (w.extractLsb' 20 2) (w.extractLsb' 16 4) (w.extractLsb' 12 4)
        (w.extractLsb' 8 4) (w.extractLsb' 0 4)) ∧
    (∀ (c : Cond) (link : Bool), w.extractLsb' 25 3 = 0b101#3 → w.extractLsb' 24 1 = BitVec.ofBool link →
      w.extractLsb' 28 4 = (match c with | .eq => 0b0000#4 | .ne => 0b0001#4 | .lt => 0b1011#4 | .gt => 0b1100#4) →
      decodeWord w = branchInstr c link (w.extractLsb' 0 24)) ∧
    (w.extractLsb' 25 3 = 0b101#3 → w.extractLsb' 28 4 ∉ [0b0000#4, 0b0001#4, 0b1011#4, 0b1100#4] →
      decodeWord w = .branchUnsupported (w.extractLsb' 28 4) (w.extractLsb' 24 1) (w.extractLsb' 0 24))

/-- The fields of the data-processing format are read from the bits R67 gives them, and a data-processing word with
any opcode but the four is one of the twelve no-ops; the opcode numbers are the spec's from general knowledge (R68,
R101; log 13). -/
def Obligations.DataProcessingFieldsRead : Prop :=
  ∀ w : Word, w.extractLsb' 26 2 = 0b00#2 →
    let cond := w.extractLsb' 28 4
    let op := w.extractLsb' 21 4
    let sb := w.extractLsb' 20 1
    let rn := w.extractLsb' 16 4
    let rd := w.extractLsb' 12 4
    let rot := w.extractLsb' 8 4
    let imm8 := w.extractLsb' 0 8
    let shift := w.extractLsb' 4 8
    let rm := w.extractLsb' 0 4
    (w.extractLsb' 25 1 = 1#1 →
      (op = 0b0010#4 → decodeWord w = .subImm cond sb rn rd rot imm8) ∧
      (op = 0b0100#4 → decodeWord w = .addImm cond sb rn rd rot imm8) ∧
      (op = 0b1010#4 → decodeWord w = .cmpImm cond sb rn rd rot imm8) ∧
      (op = 0b1101#4 → decodeWord w = .movImm cond sb rn rd rot imm8)) ∧
    (w.extractLsb' 25 1 = 0#1 →
      (op = 0b0010#4 → decodeWord w = .subReg cond sb rn rd shift rm) ∧
      (op = 0b0100#4 → decodeWord w = .addReg cond sb rn rd shift rm) ∧
      (op = 0b1010#4 → decodeWord w = .cmpReg cond sb rn rd shift rm) ∧
      (op = 0b1101#4 → decodeWord w = .movReg cond sb rn rd shift rm)) ∧
    (classify w = .dataProcessing → op ∉ [0b0010#4, 0b0100#4, 0b1010#4, 0b1101#4] →
      decodeWord w ∈ noopInstrs cond (w.extractLsb' 25 1) sb rn rd (w.extractLsb' 0 12))

/-- The fields of the single-data-transfer format are read from the bits R69 gives them, and bits 22 and 20 choose
the operation by R70. Bit 25 set means the immediate form, the reverse of standard ARM: the spec's decision D18
(R69, R124). -/
def Obligations.TransferFieldsRead : Prop :=
  ∀ w : Word, w.extractLsb' 26 2 = 0b01#2 →
    let cond := w.extractLsb' 28 4
    let p := w.extractLsb' 24 1
    let u := w.extractLsb' 23 1
    let wb := w.extractLsb' 21 1
    let rn := w.extractLsb' 16 4
    let rd := w.extractLsb' 12 4
    let imm12 := w.extractLsb' 0 12
    let shift := w.extractLsb' 4 8
    let rm := w.extractLsb' 0 4
    (w.extractLsb' 22 1 = 0#1 → w.extractLsb' 20 1 = 1#1 →
      (w.extractLsb' 25 1 = 1#1 → decodeWord w = .ldrImm cond p u wb rn rd imm12) ∧
      (w.extractLsb' 25 1 = 0#1 → decodeWord w = .ldrReg cond p u wb rn rd shift rm)) ∧
    (w.extractLsb' 22 1 = 1#1 → w.extractLsb' 20 1 = 1#1 →
      (w.extractLsb' 25 1 = 1#1 → decodeWord w = .ldrbImm cond p u wb rn rd imm12) ∧
      (w.extractLsb' 25 1 = 0#1 → decodeWord w = .ldrbReg cond p u wb rn rd shift rm)) ∧
    (w.extractLsb' 22 1 = 0#1 → w.extractLsb' 20 1 = 0#1 →
      (w.extractLsb' 25 1 = 1#1 → decodeWord w = .strImm cond p u wb rn rd imm12) ∧
      (w.extractLsb' 25 1 = 0#1 → decodeWord w = .strReg cond p u wb rn rd shift rm)) ∧
    (w.extractLsb' 22 1 = 1#1 → w.extractLsb' 20 1 = 0#1 →
      decodeWord w = .strbUnsupported cond (w.extractLsb' 25 1) p u wb rn rd imm12)

/-! ### Data processing and multiply -/

/-- `sub` completes with `Rn - op2` modulo 2^32 in Rd, both operand forms, flags and everything else unchanged
(R97, R102; the wrap is the spec's decision D19). -/
def Obligations.SubWritesDifference : Prop :=
  (∀ cond sb rn rd rot imm8 (s : State), rn ≠ RegNum.pc → rd ≠ RegNum.pc →
    ∃ t, exec (.subImm cond sb rn rd rot imm8) s = .next { s with session := t } ∧
      Computes [rd] s.session t ∧ t.flags = s.session.flags ∧
      ((t.reg rd).toNat : Int) = ((s.session.reg rn).toNat - imm8.toNat : Int) % 2 ^ 32) ∧
  (∀ cond sb rn rd shift rm (s : State), rn ≠ RegNum.pc → rd ≠ RegNum.pc → rm ≠ RegNum.pc →
    ∃ t, exec (.subReg cond sb rn rd shift rm) s = .next { s with session := t } ∧
      Computes [rd] s.session t ∧ t.flags = s.session.flags ∧
      ((t.reg rd).toNat : Int) = ((s.session.reg rn).toNat - (s.session.reg rm).toNat : Int) % 2 ^ 32)

/-- `add` completes with `Rn + op2` modulo 2^32 in Rd, both operand forms, flags and everything else unchanged
(R98, R102; the wrap is the spec's decision D19). -/
def Obligations.AddWritesSum : Prop :=
  (∀ cond sb rn rd rot imm8 (s : State), rn ≠ RegNum.pc → rd ≠ RegNum.pc →
    ∃ t, exec (.addImm cond sb rn rd rot imm8) s = .next { s with session := t } ∧
      Computes [rd] s.session t ∧ t.flags = s.session.flags ∧
      (t.reg rd).toNat = ((s.session.reg rn).toNat + imm8.toNat) % 2 ^ 32) ∧
  (∀ cond sb rn rd shift rm (s : State), rn ≠ RegNum.pc → rd ≠ RegNum.pc → rm ≠ RegNum.pc →
    ∃ t, exec (.addReg cond sb rn rd shift rm) s = .next { s with session := t } ∧
      Computes [rd] s.session t ∧ t.flags = s.session.flags ∧
      (t.reg rd).toNat = ((s.session.reg rn).toNat + (s.session.reg rm).toNat) % 2 ^ 32)

/-- `mov` completes with the second operand in Rd, both operand forms, whatever the Rn field (15 included), flags
and everything else unchanged (R100). -/
def Obligations.MovWritesOperand : Prop :=
  (∀ cond sb rn rd rot imm8 (s : State), rd ≠ RegNum.pc →
    ∃ t, exec (.movImm cond sb rn rd rot imm8) s = .next { s with session := t } ∧
      Computes [rd] s.session t ∧ t.flags = s.session.flags ∧ (t.reg rd).toNat = imm8.toNat) ∧
  (∀ cond sb rn rd shift rm (s : State), rd ≠ RegNum.pc → rm ≠ RegNum.pc →
    ∃ t, exec (.movReg cond sb rn rd shift rm) s = .next { s with session := t } ∧
      Computes [rd] s.session t ∧ t.flags = s.session.flags ∧ t.reg rd = s.session.reg rm)

/-- `cmp` completes with all four flags from `CmpFlags`, both operand forms, whatever the Rd field (15 included),
and no register written (R99, R103, R104; N as the wrapped difference's bit 31 is the spec's decision D20). -/
def Obligations.CmpWritesFourFlags : Prop :=
  (∀ cond sb rn rd rot imm8 (s : State), rn ≠ RegNum.pc →
    ∃ t, exec (.cmpImm cond sb rn rd rot imm8) s = .next { s with session := t } ∧
      Computes [] s.session t ∧ t.flags = cmpFlags (s.session.reg rn) (imm8.setWidth 32)) ∧
  (∀ cond sb rn rd shift rm (s : State), rn ≠ RegNum.pc → rm ≠ RegNum.pc →
    ∃ t, exec (.cmpReg cond sb rn rd shift rm) s = .next { s with session := t } ∧
      Computes [] s.session t ∧ t.flags = cmpFlags (s.session.reg rn) (s.session.reg rm))

/-- Each of the twelve no-op instructions completes on every state and every field, 15 included: no register, no
flag, no memory, only `computation` and `pc + 4` (R101). -/
def Obligations.NoopsOnlyAdvance : Prop :=
  ∀ cond i sb rn rd op2 (s : State), ∀ instr ∈ noopInstrs cond i sb rn rd op2,
    ∃ t, exec instr s = .next { s with session := t } ∧ Computes [] s.session t ∧ t.flags = s.session.flags

/-- `mul` completes with the low 32 bits of the product of Rm and Rs in Rd, whatever bits 21:20 and 15:12, flags
and everything else unchanged (R109, R112). -/
def Obligations.MulWritesLowProduct : Prop :=
  ∀ cond acc rd ra rs rm (s : State), rd ≠ RegNum.pc → rs ≠ RegNum.pc → rm ≠ RegNum.pc →
    ∃ t, exec (.mul cond acc rd ra rs rm) s = .next { s with session := t } ∧
      Computes [rd] s.session t ∧ t.flags = s.session.flags ∧
      (t.reg rd).toNat = (s.session.reg rm).toNat * (s.session.reg rs).toNat % 2 ^ 32

/-- The low 32 bits of a product are the same for signed operands (R110, which the spec derives from R109): what
`mul` leaves in Rd is the signed product modulo 2^32. -/
def Obligations.MulServesSignedProduct : Prop :=
  ∀ cond acc rd ra rs rm (s : State), rd ≠ RegNum.pc → rs ≠ RegNum.pc → rm ≠ RegNum.pc →
    ∃ t, exec (.mul cond acc rd ra rs rm) s = .next { s with session := t } ∧
      t.reg rd = BitVec.ofInt 32 ((s.session.reg rm).toInt * (s.session.reg rs).toInt)

/-- "A completed mul increments cnt.computation and no other counter, and sets pc to ia + 4. A faulting mul changes
nothing" (R113): every `mul` is one or the other. -/
def Obligations.MulCountsOrChangesNothing : Prop :=
  ∀ cond acc rd ra rs rm (s : State),
    (∃ t, exec (.mul cond acc rd ra rs rm) s = .next { s with session := t } ∧
      CountersGrew 1 0 0 0 s.session t ∧ t.pc = s.session.pc + 4#32) ∨
    (∃ f, exec (.mul cond acc rd ra rs rm) s = failsWith s f)

/-- A data-processing, multiply or branch-exchange instruction that names register 15 in a field it reads or
writes fails with `PcOperand`, its own word in the record, and changes nothing else (R90, R91, R138: the spec's
decisions D8 and D9). -/
def Obligations.PcOperandRefusedInComputation : Prop :=
  ∀ cond sb rn rd rot imm8 shift rm acc ra rs (s : State),
    let refused (i : Instr) : Prop :=
      exec i s = failsWith s (.unsupportedAddressingMode s.session.pc (encode i) .pcOperand)
    (rn = RegNum.pc ∨ rd = RegNum.pc →
      refused (.subImm cond sb rn rd rot imm8) ∧ refused (.addImm cond sb rn rd rot imm8)) ∧
    (rn = RegNum.pc ∨ rd = RegNum.pc ∨ rm = RegNum.pc →
      refused (.subReg cond sb rn rd shift rm) ∧ refused (.addReg cond sb rn rd shift rm)) ∧
    (rn = RegNum.pc → refused (.cmpImm cond sb rn rd rot imm8)) ∧
    (rn = RegNum.pc ∨ rm = RegNum.pc → refused (.cmpReg cond sb rn rd shift rm)) ∧
    (rd = RegNum.pc → refused (.movImm cond sb rn rd rot imm8)) ∧
    (rd = RegNum.pc ∨ rm = RegNum.pc → refused (.movReg cond sb rn rd shift rm)) ∧
    (rd = RegNum.pc ∨ rs = RegNum.pc ∨ rm = RegNum.pc → refused (.mul cond acc rd ra rs rm)) ∧
    (rm = RegNum.pc → refused (.bx cond rm))

/-! ### Flags and conditions -/

/-- The flags of a comparison in exact integers: N is the sign of the wrapped difference (the spec's decision
D20), Z is equality, C is the unsigned borrow, V is the exact signed difference leaving the 32-bit range (R103,
R105); and V is the sign rule of R106 (which the spec derives from R103). -/
def Obligations.CmpFlagsExact : Prop :=
  ∀ a b : Word,
    ((cmpFlags a b).n = true ↔ (((a.toNat : Int) - b.toNat) % 2 ^ 32) ≥ 2 ^ 31) ∧
    ((cmpFlags a b).z = true ↔ a = b) ∧
    ((cmpFlags a b).c = true ↔ b.toNat > a.toNat) ∧
    ((cmpFlags a b).v = true ↔ (a.toInt - b.toInt > 2 ^ 31 - 1 ∨ a.toInt - b.toInt < -(2 ^ 31))) ∧
    ((cmpFlags a b).v = true ↔ (a.msb ≠ b.msb ∧ (a - b).msb ≠ a.msb))

/-- After a comparison the four conditions mean equal, not equal, signed less and signed greater (R108, which the
spec derives from R103 and R114). -/
def Obligations.ConditionsAfterCompare : Prop :=
  ∀ a b : Word,
    (condHolds (cmpFlags a b) .eq = true ↔ a = b) ∧
    (condHolds (cmpFlags a b) .ne = true ↔ a ≠ b) ∧
    (condHolds (cmpFlags a b) .lt = true ↔ a.toInt < b.toInt) ∧
    (condHolds (cmpFlags a b) .gt = true ↔ a.toInt > b.toInt)

/-- The flags are written only by `cmp`: an instruction after which a flag differs is a `cmp` (R24, R104: the
spec's decision D15). -/
def Obligations.OnlyCmpWritesFlags : Prop :=
  ∀ (i : Instr) (s t : State), exec i s = .next t → t.session.flags ≠ s.session.flags →
    (∃ cond sb rn rd rot imm8, i = .cmpImm cond sb rn rd rot imm8) ∨
    (∃ cond sb rn rd shift rm, i = .cmpReg cond sb rn rd shift rm)

/-! ### Branches -/

/-- A branch whose condition holds, all eight instructions: the program counter becomes
`ia + sext(imm24) * 4 + 8` modulo 2^32, `r14` becomes `ia + 4` if the branch links, `taken` grows by 1, and nothing
else changes (R114, R116, R118; the wrap of the target is the spec's decision D19, the condition numbers general
knowledge). -/
def Obligations.TakenBranchJumps : Prop :=
  ∀ (c : Cond) (link : Bool) (imm24 : BitVec 24) (s : State), CondMeaning s.session.flags c →
    ∃ t, exec (branchInstr c link imm24) s = .next { s with session := t } ∧
      ((t.pc.toNat : Int) = (s.session.pc.toNat + imm24.toInt * 4 + 8) % 2 ^ 32) ∧
      t.reg RegNum.lr = (if link then s.session.pc + 4#32 else s.session.reg RegNum.lr) ∧
      RegsKeptBut [RegNum.pc, RegNum.lr] s.session t ∧ t.flags = s.session.flags ∧ MemoryKept s.session t ∧
      RestKept s.session t ∧ CountersGrew 0 0 1 0 s.session t

/-- A branch whose supported condition does not hold only advances by 4, whatever its link bit, all eight
instructions: `notTaken` grows by 1, and no register, flag or memory changes (R119). -/
def Obligations.UntakenBranchAdvances : Prop :=
  ∀ (c : Cond) (link : Bool) (imm24 : BitVec 24) (s : State), ¬ CondMeaning s.session.flags c →
    ∃ t, exec (branchInstr c link imm24) s = .next { s with session := t } ∧
      t.pc = s.session.pc + 4#32 ∧ RegsKeptBut [RegNum.pc] s.session t ∧ t.flags = s.session.flags ∧
      MemoryKept s.session t ∧ RestKept s.session t ∧ CountersGrew 0 0 0 1 s.session t

/-- The link register is written only when a branch is both linked and taken, together with the jump; an unlinked
taken branch and an untaken branch do not touch it (R117). -/
def Obligations.LinkWrittenWithJump : Prop :=
  ∀ (c : Cond) (link : Bool) (imm24 : BitVec 24) (s : State),
    ∃ t, exec (branchInstr c link imm24) s = .next { s with session := t } ∧
      (CondMeaning s.session.flags c → link = true →
        t.reg RegNum.lr = s.session.pc + 4#32 ∧ t.pc = branchTarget s.session.pc imm24) ∧
      (¬ CondMeaning s.session.flags c ∨ link = false → t.reg RegNum.lr = s.session.reg RegNum.lr)

/-- A branch under any other condition fails with `Condition` and its own word, whatever the flags are and before
anything changes (R115: the spec's decision D11). -/
def Obligations.UnsupportedConditionFails : Prop :=
  ∀ cond link imm24 (s : State),
    exec (.branchUnsupported cond link imm24) s =
      failsWith s (.unsupportedAddressingMode s.session.pc (encode (.branchUnsupported cond link imm24)) .condition)

/-- `bx Rm` completes with the program counter at Rm's value, unchecked and uncleared, whatever the condition
field, `taken` grown by 1, and no other register, flag or memory changed (R120; that bit 0 is kept is the spec's
decision D29). -/
def Obligations.BxJumpsToRegister : Prop :=
  ∀ cond rm (s : State), rm ≠ RegNum.pc →
    ∃ t, exec (.bx cond rm) s = .next { s with session := t } ∧ t.pc = s.session.reg rm ∧
      RegsKeptBut [RegNum.pc] s.session t ∧ t.flags = s.session.flags ∧ MemoryKept s.session t ∧
      RestKept s.session t ∧ CountersGrew 0 0 1 0 s.session t

/-- Only a `bx` can leave the program counter misaligned: every other instruction keeps its alignment (R140, which
the spec derives from R82, R116 and R120). -/
def Obligations.OnlyBxMisalignsPc : Prop :=
  ∀ (i : Instr) (s t : State), exec i s = .next t → s.session.pc.toNat % 4 = 0 → t.session.pc.toNat % 4 ≠ 0 →
    ∃ cond rm, i = .bx cond rm ∧ t.session.pc = s.session.reg rm

/-! ### Loads and stores -/

/-- The effective address is base plus offset modulo 2^32, for both offset forms (R123, R124; the wrap is the
spec's decision D19). -/
def Obligations.EffectiveAddressWraps : Prop :=
  ∀ (t : Session) (rn rm : RegNum) (imm12 : BitVec 12),
    (effectiveAddress t rn (.imm imm12)).toNat = ((t.reg rn).toNat + imm12.toNat) % 2 ^ 32 ∧
    (effectiveAddress t rn (.reg rm)).toNat = ((t.reg rn).toNat + (t.reg rm).toNat) % 2 ^ 32

/-- `ldr` completes when the address is a multiple of 4 and the word lies in the image: Rd gets the four bytes,
little-endian, and nothing else changes, both offset forms, whatever P, U and W (R123, R126, R130; the byte order
and the alignment are the spec's decisions D1 and D2). -/
def Obligations.LdrLoadsWord : Prop :=
  let word (m : Memory) (a : Nat) : Nat :=
    (m.read a).toNat + 2 ^ 8 * (m.read (a + 1)).toNat + 2 ^ 16 * (m.read (a + 2)).toNat +
      2 ^ 24 * (m.read (a + 3)).toNat
  (∀ cond p u w rn rd imm12 (s : State), rn ≠ RegNum.pc → rd ≠ RegNum.pc →
    let ea := effectiveAddress s.session rn (.imm imm12)
    ea.toNat % 4 = 0 → s.session.cfg.InImage ea 4 →
    ∃ t, exec (.ldrImm cond p u w rn rd imm12) s = .next { s with session := t } ∧ Loads rd s.session t ∧
      (t.reg rd).toNat = word s.session.mem ea.toNat) ∧
  (∀ cond p u w rn rd shift rm (s : State), rn ≠ RegNum.pc → rd ≠ RegNum.pc → rm ≠ RegNum.pc →
    let ea := effectiveAddress s.session rn (.reg rm)
    ea.toNat % 4 = 0 → s.session.cfg.InImage ea 4 →
    ∃ t, exec (.ldrReg cond p u w rn rd shift rm) s = .next { s with session := t } ∧ Loads rd s.session t ∧
      (t.reg rd).toNat = word s.session.mem ea.toNat)

/-- `ldrb` completes when the byte lies in the image, at any alignment: Rd gets the byte, zero-extended, and nothing
else changes, both offset forms, whatever P, U and W (R123, R127, R130). -/
def Obligations.LdrbLoadsByte : Prop :=
  (∀ cond p u w rn rd imm12 (s : State), rn ≠ RegNum.pc → rd ≠ RegNum.pc →
    let ea := effectiveAddress s.session rn (.imm imm12)
    s.session.cfg.InImage ea 1 →
    ∃ t, exec (.ldrbImm cond p u w rn rd imm12) s = .next { s with session := t } ∧ Loads rd s.session t ∧
      (t.reg rd).toNat = (s.session.mem.read ea.toNat).toNat) ∧
  (∀ cond p u w rn rd shift rm (s : State), rn ≠ RegNum.pc → rd ≠ RegNum.pc → rm ≠ RegNum.pc →
    let ea := effectiveAddress s.session rn (.reg rm)
    s.session.cfg.InImage ea 1 →
    ∃ t, exec (.ldrbReg cond p u w rn rd shift rm) s = .next { s with session := t } ∧ Loads rd s.session t ∧
      (t.reg rd).toNat = (s.session.mem.read ea.toNat).toNat)

/-- `str` completes when the address is a multiple of 4 and the word lies in the image: the four bytes there become
Rd's, little-endian, every other byte and every register but the program counter unchanged, both offset forms,
whatever P, U and W (R123, R128, R130; the byte order and the alignment are the spec's decisions D1 and D2). Memory is
in its canonical form, which every step keeps (`StepKeepsInvariant`). -/
def Obligations.StrStoresWord : Prop :=
  (∀ cond p u w rn rd imm12 (s : State), rn ≠ RegNum.pc → rd ≠ RegNum.pc → Memory.wf s.session.mem →
    let ea := effectiveAddress s.session rn (.imm imm12)
    ea.toNat % 4 = 0 → s.session.cfg.InImage ea 4 →
    ∃ t, exec (.strImm cond p u w rn rd imm12) s = .next { s with session := t } ∧
      Stores ea.toNat (s.session.reg rd) s.session t) ∧
  (∀ cond p u w rn rd shift rm (s : State), rn ≠ RegNum.pc → rd ≠ RegNum.pc → rm ≠ RegNum.pc →
    Memory.wf s.session.mem →
    let ea := effectiveAddress s.session rn (.reg rm)
    ea.toNat % 4 = 0 → s.session.cfg.InImage ea 4 →
    ∃ t, exec (.strReg cond p u w rn rd shift rm) s = .next { s with session := t } ∧
      Stores ea.toNat (s.session.reg rd) s.session t)

/-- A transfer that names register 15 in a field it reads or writes fails with `PcOperand` before any check of its
address (R90, R91, R125, R138: the spec's decisions D8, D9 and D25). -/
def Obligations.PcOperandRefusedInTransfer : Prop :=
  ∀ cond p u w rn rd imm12 shift rm (s : State),
    let refused (i : Instr) : Prop :=
      exec i s = failsWith s (.unsupportedAddressingMode s.session.pc (encode i) .pcOperand)
    (rn = RegNum.pc ∨ rd = RegNum.pc →
      refused (.ldrImm cond p u w rn rd imm12) ∧ refused (.ldrbImm cond p u w rn rd imm12) ∧
      refused (.strImm cond p u w rn rd imm12)) ∧
    (rn = RegNum.pc ∨ rd = RegNum.pc ∨ rm = RegNum.pc →
      refused (.ldrReg cond p u w rn rd shift rm) ∧ refused (.ldrbReg cond p u w rn rd shift rm) ∧
      refused (.strReg cond p u w rn rd shift rm))

/-- A word transfer at an address that is not a multiple of 4 fails with `MisalignedAccess`, in the image or not
(R42, R125, R140: the spec's decisions D2 and D25). -/
def Obligations.MisalignedTransferFails : Prop :=
  ∀ cond p u w rn rd imm12 shift rm (s : State), rn ≠ RegNum.pc → rd ≠ RegNum.pc →
    let a := effectiveAddress s.session rn (.imm imm12)
    let b := effectiveAddress s.session rn (.reg rm)
    (a.toNat % 4 ≠ 0 →
      exec (.ldrImm cond p u w rn rd imm12) s = failsWith s (.misalignedAccess s.session.pc a .load) ∧
      exec (.strImm cond p u w rn rd imm12) s = failsWith s (.misalignedAccess s.session.pc a .store)) ∧
    (rm ≠ RegNum.pc → b.toNat % 4 ≠ 0 →
      exec (.ldrReg cond p u w rn rd shift rm) s = failsWith s (.misalignedAccess s.session.pc b .load) ∧
      exec (.strReg cond p u w rn rd shift rm) s = failsWith s (.misalignedAccess s.session.pc b .store))

/-- A transfer outside the image fails with `OutOfBounds`, its address and its access kind, and reads or writes
nothing (R43, R137; a word that straddles the image's end is outside as a whole). -/
def Obligations.OutOfBoundsTransferFails : Prop :=
  ∀ cond p u w rn rd imm12 shift rm (s : State), rn ≠ RegNum.pc → rd ≠ RegNum.pc →
    let a := effectiveAddress s.session rn (.imm imm12)
    let b := effectiveAddress s.session rn (.reg rm)
    let outside (x : Word) (n : Nat) : Prop :=
      x.toNat < s.session.cfg.imageBase ∨ s.session.cfg.imageEnd < x.toNat + n
    (a.toNat % 4 = 0 → outside a 4 →
      exec (.ldrImm cond p u w rn rd imm12) s = failsWith s (.outOfBounds s.session.pc a .load) ∧
      exec (.strImm cond p u w rn rd imm12) s = failsWith s (.outOfBounds s.session.pc a .store)) ∧
    (outside a 1 →
      exec (.ldrbImm cond p u w rn rd imm12) s = failsWith s (.outOfBounds s.session.pc a .load)) ∧
    (rm ≠ RegNum.pc → b.toNat % 4 = 0 → outside b 4 →
      exec (.ldrReg cond p u w rn rd shift rm) s = failsWith s (.outOfBounds s.session.pc b .load) ∧
      exec (.strReg cond p u w rn rd shift rm) s = failsWith s (.outOfBounds s.session.pc b .store)) ∧
    (rm ≠ RegNum.pc → outside b 1 →
      exec (.ldrbReg cond p u w rn rd shift rm) s = failsWith s (.outOfBounds s.session.pc b .load))

/-- A byte store fails with `ByteStore` and its own word, whatever its registers and its address, and nothing
changes (R129; that it comes before every other check is the spec's decision D25). -/
def Obligations.ByteStoreFails : Prop :=
  ∀ cond i p u w rn rd offset (s : State),
    exec (.strbUnsupported cond i p u w rn rd offset) s =
      failsWith s (.unsupportedAddressingMode s.session.pc (encode (.strbUnsupported cond i p u w rn rd offset))
        .byteStore)

/-- "A completed ldr, ldrb or str increments cnt.memory and no other counter, and sets pc to ia + 4. A faulting
transfer changes no register, memory byte, counter or cache state" (R132): every transfer is one or the other. -/
def Obligations.TransfersCountOrChangeNothing : Prop :=
  ∀ cond p u w rn rd imm12 shift rm (s : State),
    ∀ i ∈ [Instr.ldrImm cond p u w rn rd imm12, .ldrReg cond p u w rn rd shift rm, .ldrbImm cond p u w rn rd imm12,
      .ldrbReg cond p u w rn rd shift rm, .strImm cond p u w rn rd imm12, .strReg cond p u w rn rd shift rm],
    (∃ t, exec i s = .next { s with session := t } ∧ CountersGrew 0 1 0 0 s.session t ∧
      t.pc = s.session.pc + 4#32) ∨
    (∃ f, exec i s = failsWith s f)

/-- A load after a completed store, both forms of `str`: the word at the stored address is the stored value, and its
byte `k` is bits `8k+7 : 8k` (R38, R48; the byte order is the spec's decision D1). Memory is in its canonical form,
which every step keeps. -/
def Obligations.LoadAfterStore : Prop :=
  ∀ cond p u w rn rd imm12 shift rm (s : State) (t : Session), Memory.wf s.session.mem → s.status = .running →
    let stored (ea : Word) : Prop :=
      t.memReadWord .load ea = .ok (s.session.reg rd) ∧
      ∀ k, k < 4 → t.memReadByte .load (ea + BitVec.ofNat 32 k) =
        .ok (((s.session.reg rd).extractLsb' (8 * k) 8).setWidth 32)
    (exec (.strImm cond p u w rn rd imm12) s = .next { s with session := t } →
      stored (effectiveAddress s.session rn (.imm imm12))) ∧
    (exec (.strReg cond p u w rn rd shift rm) s = .next { s with session := t } →
      stored (effectiveAddress s.session rn (.reg rm)))

/-- A store, in both forms of `str`, is seen by the very next fetch of the stored word, in the code region or not (R52,
R158; derived by the spec from R48 and R53, its decision D32). Memory is in its canonical form, which every step
keeps. -/
def Obligations.StoredWordIsFetched : Prop :=
  ∀ cond p u w rn rd imm12 shift rm (s : State) (t : Session), Memory.wf s.session.mem → s.status = .running →
    let fetched (ea : Word) : Prop :=
      ∀ later : Session, later.mem = t.mem → later.cfg = t.cfg → later.pc = ea →
        later.fetch = .ok (s.session.reg rd)
    (exec (.strImm cond p u w rn rd imm12) s = .next { s with session := t } →
      fetched (effectiveAddress s.session rn (.imm imm12))) ∧
    (exec (.strReg cond p u w rn rd shift rm) s = .next { s with session := t } →
      fetched (effectiveAddress s.session rn (.reg rm)))

/-- Memory is changed only by `str`, and only in the four bytes at its effective address (R39, R48, R128). -/
def Obligations.OnlyStrWritesMemory : Prop :=
  ∀ (i : Instr) (s t : State) (addr : Nat), exec i s = .next t →
    t.session.mem.read addr ≠ s.session.mem.read addr →
    ∃ cond p u w rn rd, ∃ ea : Word, ea.toNat ≤ addr ∧ addr < ea.toNat + 4 ∧
      ((∃ imm12, i = .strImm cond p u w rn rd imm12 ∧ ea = effectiveAddress s.session rn (.imm imm12)) ∨
       (∃ shift rm, i = .strReg cond p u w rn rd shift rm ∧ ea = effectiveAddress s.session rn (.reg rm)))

/-! ### Every instruction -/

/-- An Unknown word fails with `UnknownInstruction`, its address and its raw word, and changes nothing else, both
rows (R136: the spec's decision D34). -/
def Obligations.UnknownWordFails : Prop :=
  (∀ cond rest (s : State), exec (.unknown100 cond rest) s =
    failsWith s (.unknownInstruction s.session.pc (encode (.unknown100 cond rest)))) ∧
  (∀ cond rest (s : State), exec (.unknown11 cond rest) s =
    failsWith s (.unknownInstruction s.session.pc (encode (.unknown11 cond rest))))

/-- Every instruction answers a next state from every state, and it either completes, leaving the status as it was,
or fails, changing nothing but the status (R88, R133, R144; that a fault is a next state is the model's reading, log
1). -/
def Obligations.EveryInstructionCompletesOrFails : Prop :=
  ∀ (i : Instr) (s : State),
    (∃ t, exec i s = .next { s with session := t } ∧ t.completed = s.session.completed + 1) ∨
    (∃ f, exec i s = failsWith s f ∧ f.pc = s.session.pc)

/-- No instruction writes a general register other than the one it names, but for `r14` by a linking branch (R16,
R92); registers 0 to 14 that are not written keep their value. -/
def Obligations.RegistersWrittenOnlyAsNamed : Prop :=
  ∀ (i : Instr) (s t : State), exec i s = .next t →
    RegsKeptBut (RegNum.pc :: writtenRegs i) s.session t.session ∧ (writtenRegs i).length ≤ 1

/-- The condition field is evaluated by the branch class only. Two words that differ in bits 31:28 alone, not of the
branch class, are of one class; where one completes the other completes with the same effect; and where one fails, its
record's raw word, if it has one, is the word itself, and the other fails with a fault that differs in that word alone
(R60, R93, R138; the spec's decision D10). -/
def Obligations.ConditionFieldIgnoredOutsideBranches : Prop :=
  ∀ (w w' : Word), w.extractLsb' 0 28 = w'.extractLsb' 0 28 → classify w ≠ .branch →
    classify w' = classify w ∧
    ∀ s : State,
      (∀ t, s.status = .running → exec (decodeWord w) s = .next { s with session := t } →
        exec (decodeWord w') s = .next { s with session := t }) ∧
      (∀ f, exec (decodeWord w) s = failsWith s f →
        f.withWord w = f ∧ exec (decodeWord w') s = failsWith s (f.withWord w'))

/-! ### The step -/

/-- When the four bytes at the program counter decode to an instruction, and the program counter is not 0, the
ceiling is not reached and the fetch is legal, the step is that instruction's execution after one cache access; if it
fails, the access is not kept (R79, R80, R81, R88; the rollback is the spec's decision D24). -/
def Obligations.StepRunsDecodedInstruction : Prop :=
  ∀ (s : State) (i : Instr), s.status = .running → s.session.pc ≠ 0#32 →
    s.session.completed < s.session.cfg.maxInsns → s.session.pc.toNat % 4 = 0 →
    s.session.cfg.InImage s.session.pc 4 →
    let a := s.session.pc.toNat
    let m := s.session.mem
    decode [m.read a, m.read (a + 1), m.read (a + 2), m.read (a + 3)] = .ok (i, []) →
    let fetched : State := { s with session := { s.session with icache := s.session.icache.access s.session.pc } }
    (∀ t, exec i fetched = .next t → t.status = .running → step s = .next t) ∧
    (∀ t r, exec i fetched = .next t → t.status = .failed r → step s = failsWith s r.fault)

/-- At the top of every step the program counter is compared with the sentinel 0: if they are equal the session
halts and nothing else changes, and no other step halts it (R84). That a step of a halted session answers the host's
fault `sessionHalted` with register 0, the result of the run, is the model's reading (log 1). -/
def Obligations.SentinelHalts : Prop :=
  ∀ s : State, s.status = .running →
    (s.session.pc = 0#32 → step s = .next { s with status := .halted }) ∧
    (∀ t, step s = .next t → t.status = .halted → s.session.pc = 0#32) ∧
    step { s with status := .halted } = .fault (.sessionHalted (s.session.reg 0#4))

/-- The checks at the top of a step come in the order ceiling, fetch alignment, fetch bounds, each failing with its
own record and nothing else changed (R79, R80, R86, R87, R139, R142: the spec's decisions D23, D25 and D31). -/
def Obligations.StepChecksInOrder : Prop :=
  ∀ s : State, s.status = .running → s.session.pc ≠ 0#32 →
    let ia := s.session.pc
    (s.session.completed ≥ s.session.cfg.maxInsns → step s = failsWith s (.nonTerminating ia)) ∧
    (s.session.completed < s.session.cfg.maxInsns →
      (ia.toNat % 4 ≠ 0 → step s = failsWith s (.misalignedAccess ia ia .fetch)) ∧
      (ia.toNat % 4 = 0 → ¬ s.session.cfg.InImage ia 4 → step s = failsWith s (.outOfBounds ia ia .fetch)))

/-- The status is `Running` from construction, becomes `Halted` or `Failed` by a step of a running session, and
neither is ever left: a session that has ended takes no further step (R33). -/
def Obligations.EndedSessionTakesNoStep : Prop :=
  (∀ p s, construct p = .ok s → s.status = .running) ∧
  (∀ s : State, s.status = .running → s.session.pc = 0#32 → ∃ t, step s = .next t ∧ t.status = .halted) ∧
  (∀ (s t : State), step s = .next t → t.status = .halted → s.session.pc = 0#32) ∧
  (∀ (s t : State) (r : FaultRecord), step s = .next t → t.status = .failed r → step s = failsWith s r.fault) ∧
  (∀ s : State, s.status ≠ .running → ∀ t, step s ≠ .next t) ∧
  (∀ s : State, s.status = .running → ∃ t, step s = .next t)

/-- A step that raises a fault commits no register, flag, memory, counter or cache-model change, and its record
holds the state before the step and the address of the step (R88, R134, R144; the whole step's atomicity is the
spec's decision D24). -/
def Obligations.FailedStepCommitsNothing : Prop :=
  ∀ (s t : State) (r : FaultRecord), step s = .next t → t.status = .failed r →
    t.session = s.session ∧ r.state = s.session ∧ r.fault.pc = s.session.pc

/-- A completed step increments exactly one counter, makes exactly one cache access, of the address it fetched, and
changes no session parameter (R9, R26, R55, R81, R82). -/
def Obligations.CompletedStepCountsOnce : Prop :=
  ∀ (s t : State), step s = .next t → t.status = .running →
    t.session.icache = s.session.icache.access s.session.pc ∧ t.session.cfg = s.session.cfg ∧
    (CountersGrew 1 0 0 0 s.session t.session ∨ CountersGrew 0 1 0 0 s.session t.session ∨
      CountersGrew 0 0 1 0 s.session t.session ∨ CountersGrew 0 0 0 1 s.session t.session)

/-- The invariant of a session is kept by every step, from every state that meets it: legal parameters, canonical
memory inside the image, a cache model of legal size whose counters add up to the completed instructions, the
ceiling, and a failed state unchanged since its record (R27, R35, R56, R58, R86, R88). -/
def Obligations.StepKeepsInvariant : Prop :=
  ∀ s t : State, s.Inv → step s = .next t → t.Inv

/-- The invariant holds right after reset. That the reference session has these parameters is the model's choice
(log 2, log 3). -/
def Obligations.ResetMeetsInvariant : Prop :=
  State.reset.Inv

/-! ### Construction and runs -/

/-- Construction gives every piece of state the value of R31: arguments, initial registers, stack pointer, link
register, program counter, flags, counters, memory, an invalid cache of the given size, and status `Running`. A stack
pointer or program counter of 2^32 wraps to 0 by the model's reading (log 7). -/
def Obligations.ConstructionGivesResetValues : Prop :=
  ∀ (p : Params) (s : State), construct p = .ok s →
    (∀ r : Fin 4, s.session.reg (BitVec.ofNat 4 r) = p.args[r]) ∧
    (∀ r : Fin 9, s.session.reg (BitVec.ofNat 4 (r + 4)) = p.initRegs[r]) ∧
    s.session.reg RegNum.sp = BitVec.ofNat 32 (p.imageBase + 4 * ((p.code.length + 3) / 4) + p.stackSize) ∧
    s.session.reg RegNum.lr = 0#32 ∧ s.session.pc = BitVec.ofNat 32 p.imageBase ∧ s.session.flags = p.initFlags ∧
    s.session.completed = 0 ∧
    (∀ i, s.session.mem.read (p.imageBase + i) = p.code.getD i 0#8) ∧
    s.session.icache.slots.length = p.cacheSize ∧ (∀ slot ∈ s.session.icache.slots, slot.valid = false) ∧
    s.session.icache.requests = 0 ∧ s.session.icache.hits = 0 ∧ s.session.icache.misses = 0 ∧
    s.session.cfg = { imageBase := p.imageBase, codeSize := 4 * ((p.code.length + 3) / 4),
                      stackSize := p.stackSize, maxInsns := p.maxInsns } ∧
    s.status = .running

/-- Construction succeeds exactly when the checks of R152 pass, and a refusal names a parameter that breaks its
constraint (R56, R141, R152: the spec's decisions D3, D5 and D22; which of several it names is the model's choice, log
8). -/
def Obligations.ConstructionChecksParameters : Prop :=
  ∀ p : Params,
    let size := p.imageBase + 4 * ((p.code.length + 3) / 4) + p.stackSize
    ((∃ s, construct p = .ok s) ↔
      ((∃ k, p.cacheSize = 2 ^ k) ∧ p.stackSize % 4 = 0 ∧ p.imageBase % 4 = 0 ∧ p.imageBase ≠ 0 ∧ size ≤ 2 ^ 32)) ∧
    (construct p = .error .cacheSize → ¬ ∃ k, p.cacheSize = 2 ^ k) ∧
    (construct p = .error .stackSize → p.stackSize % 4 ≠ 0) ∧
    (construct p = .error .imageBase → p.imageBase % 4 ≠ 0 ∨ p.imageBase = 0) ∧
    (construct p = .error .imageEnd → size > 2 ^ 32)

/-- Every session construction accepts starts in the invariant (R31, R151, R152). -/
def Obligations.ConstructionMeetsInvariant : Prop :=
  ∀ (p : Params) (s : State), construct p = .ok s → s.Inv

/-- Run-to-completion always ends, halted or failed, with at most MAX_INSNS instructions completed: from every state
that has completed no more than MAX_INSNS (and whose record, if it has failed, holds the state it failed in, as the
invariant says), no session runs for ever (R78, R86, R95; the ceiling is the
spec's decision D23). -/
def Obligations.EveryRunEnds : Prop :=
  ∀ s : State, s.session.completed ≤ s.session.cfg.maxInsns → (∀ r, s.status = .failed r → r.state = s.session) →
    ∃ r, runToCompletion s = some r ∧ r.session.completed ≤ s.session.cfg.maxInsns

/-! ### The instruction-cache model -/

/-- The cache model does not affect execution: with any other cache model in its place a step does the same to
everything else, fetch included, and no instruction changes the cache model (R30). -/
def Obligations.CacheDoesNotAffectStep : Prop :=
  (∀ (s : State) (c : ICache),
    outcomeWithoutCache (step { s with session := { s.session with icache := c } }) = outcomeWithoutCache (step s)) ∧
  (∀ (i : Instr) (s t : State), exec i s = .next t → t.session.icache = s.session.icache)

/-- A whole run ends in the same way, with the same result or the same fault, whatever the cache model held: the
cache "does not affect execution correctness, only statistics" (R30). -/
def Obligations.CacheDoesNotAffectResult : Prop :=
  ∀ (n : Nat) (s : State) (c : ICache),
    (runFor n { s with session := { s.session with icache := c } }).map RunResult.ending =
      (runFor n s).map RunResult.ending

/-- `log2(CACHE_SIZE)` is the number of right shifts until 1 is reached, the exact logarithm of a power of two, and
one slot means slot 0 (R54). -/
def Obligations.CacheLogCountsShifts : Prop :=
  (∀ n, 1 ≤ n → n >>> cacheLog2 n = 1 ∧ ∀ j, j < cacheLog2 n → n >>> j ≠ 1) ∧
  (∀ k, cacheLog2 (2 ^ k) = k) ∧ cacheLog2 1 = 0 ∧ ∀ a : Word, slotIndex 1 a = 0

/-- A cache access, of any size from 1 on, counts one request and exactly one outcome: a hit if the address's slot is
valid and holds its tag, a miss otherwise (an invalid slot always misses). It leaves that slot valid with that tag and
every other slot as it was (R53, R58). For size `2^k` the slot is `uint(addr) / 4` modulo `2^k` and the tag is
`uint(addr) / 4 / 2^k`, the bits above it; the tag formula is the spec's decision D21 (R53). -/
def Obligations.CacheAccessFillsSlot : Prop :=
  (∀ (c : ICache) (a : Word), 1 ≤ c.size →
    let i := slotIndex c.size a
    let present : Prop := ∃ slot, c.slots[i]? = some slot ∧ slot.valid = true ∧ slot.tag = slotTag c.size a
    let d := c.access a
    i < c.size ∧ d.size = c.size ∧ d.requests = c.requests + 1 ∧ (c.hit a = true ↔ present) ∧
    (present → d.hits = c.hits + 1 ∧ d.misses = c.misses) ∧
    (¬ present → d.hits = c.hits ∧ d.misses = c.misses + 1) ∧
    ((∃ slot, c.slots[i]? = some slot ∧ slot.valid = false) → d.misses = c.misses + 1) ∧
    d.slots[i]? = some { valid := true, tag := slotTag c.size a } ∧ ∀ j, j ≠ i → d.slots[j]? = c.slots[j]?) ∧
  (∀ (k : Nat) (a : Word),
    slotIndex (2 ^ k) a = a.toNat / 4 % 2 ^ k ∧ (slotTag (2 ^ k) a).toNat = a.toNat / 4 / 2 ^ k)

/-- Repeated fetches of an address hit: after an access, any accesses to other slots leave the next access to the
address a hit (R58 (b)). -/
def Obligations.RepeatedFetchHits : Prop :=
  ∀ (c : ICache) (a : Word) (others : List Word), 1 ≤ c.size →
    (∀ b ∈ others, slotIndex c.size b ≠ slotIndex c.size a) →
    ((c.access a).accessAll others).hit a = true

/-- Two addresses of one slot with different tags, accessed alternately: every access after the first misses (R58
(c)). -/
def Obligations.AlternatingFetchesMiss : Prop :=
  ∀ (c : ICache) (a b : Word) (n : Nat), 1 ≤ c.size → slotIndex c.size a = slotIndex c.size b →
    slotTag c.size a ≠ slotTag c.size b →
    ((c.access a).accessAll (alternating n b a)).misses = (c.access a).misses + n ∧
    ((c.access a).accessAll (alternating n b a)).hits = (c.access a).hits

/-- For word-aligned addresses of one slot, equal tags mean equal addresses, whatever power of two the size is (R58
(e), which the spec derives from R53 and R55; the tag formula is the spec's decision D21). -/
def Obligations.TagTellsAlignedAddresses : Prop :=
  ∀ (k : Nat) (a b : Word), a.toNat % 4 = 0 → b.toNat % 4 = 0 → slotIndex (2 ^ k) a = slotIndex (2 ^ k) b →
    (slotTag (2 ^ k) a = slotTag (2 ^ k) b ↔ a = b)
end

