-- ==== Sys2Proof/Laws/Cache.lean ====
section
/-! SUPPORT. The laws of the instruction-cache model (spec/20_memory.md R53, R54). -/

namespace Sys2Proof.Machine

/-- Enough fuel counts the shifts of a power of two exactly (R54). -/
theorem shiftsToOne_pow (k : Nat) : ∀ fuel, k ≤ fuel → shiftsToOne fuel (2 ^ k) = k := by
  induction k with
  | zero => intro fuel _; cases fuel <;> simp [shiftsToOne]
  | succ k ih =>
    intro fuel h
    obtain ⟨fuel, rfl⟩ : ∃ f, fuel = f + 1 := ⟨fuel - 1, by omega⟩
    have h2 : ¬ 2 ^ (k + 1) ≤ 1 := by
      have := Nat.one_le_two_pow (n := k)
      rw [Nat.pow_succ]; omega
    rw [shiftsToOne, if_neg h2, Nat.shiftRight_eq_div_pow, Nat.pow_succ, pow_one,
      Nat.mul_div_cancel _ (by decide), ih fuel (by omega)]

/-- The logarithm of a power of two is its exponent (R54). -/
@[simp] theorem cacheLog2_pow (k : Nat) : cacheLog2 (2 ^ k) = k :=
  shiftsToOne_pow k _ (Nat.lt_two_pow_self).le

/-- The size check is the power-of-two check (R56). -/
theorem powerOfTwo_iff (n : Nat) : PowerOfTwo n ↔ ∃ k, n = 2 ^ k :=
  ⟨fun h => ⟨_, h.symm⟩, by rintro ⟨k, rfl⟩; simp [PowerOfTwo]⟩

/-- A legal size has at least one slot. -/
theorem PowerOfTwo.one_le {n : Nat} (h : PowerOfTwo n) : 1 ≤ n := by
  obtain ⟨k, rfl⟩ := (powerOfTwo_iff n).mp h
  exact Nat.one_le_two_pow

/-- The slot index is in range. -/
theorem slotIndex_lt {n : Nat} (h : 1 ≤ n) (a : Word) : slotIndex n a < n := by
  have : slotIndex n a ≤ n - 1 := Nat.and_le_right
  omega

/-- For a power of two the slot index is the remainder of the word index. -/
theorem slotIndex_pow (k : Nat) (a : Word) : slotIndex (2 ^ k) a = a.toNat / 4 % 2 ^ k := by
  rw [slotIndex, Nat.and_two_pow_sub_one_eq_mod, Nat.shiftRight_eq_div_pow]

/-- For a power of two the tag is the quotient of the word index. -/
theorem slotTag_pow_toNat (k : Nat) (a : Word) : (slotTag (2 ^ k) a).toNat = a.toNat / 4 / 2 ^ k := by
  rw [slotTag, cacheLog2_pow, BitVec.toNat_ofNat, Nat.shiftRight_eq_div_pow, Nat.pow_add, Nat.mul_comm,
    ← Nat.div_div_eq_div_mul]
  apply Nat.mod_eq_of_lt
  exact lt_of_le_of_lt ((Nat.div_le_self _ _).trans (Nat.div_le_self _ _)) a.isLt

/-- An access hits exactly when the address's slot is there, valid, and holds its tag (R53). -/
theorem ICache.hit_iff (c : ICache) (a : Word) :
    c.hit a = true ↔
      ∃ slot, c.slots[slotIndex c.size a]? = some slot ∧ slot.valid = true ∧ slot.tag = slotTag c.size a := by
  simp only [ICache.hit, ICache.slotAt, List.getD_eq_getElem?_getD, Bool.and_eq_true, beq_iff_eq]
  cases c.slots[slotIndex c.size a]? <;> simp

/-! ### What one access does: one lemma per field -/

@[simp] theorem ICache.access_requests (c : ICache) (a : Word) : (c.access a).requests = c.requests + 1 := by
  unfold ICache.access; split <;> rfl

theorem ICache.access_hits (c : ICache) (a : Word) :
    (c.access a).hits = if c.hit a = true then c.hits + 1 else c.hits := by
  unfold ICache.access; split <;> rfl

theorem ICache.access_misses (c : ICache) (a : Word) :
    (c.access a).misses = if c.hit a = true then c.misses else c.misses + 1 := by
  unfold ICache.access; split <;> rfl

@[simp] theorem ICache.access_size (c : ICache) (a : Word) : (c.access a).size = c.size := by
  unfold ICache.access ICache.size; split <;> simp

/-- Hits and misses together grow by one (R58 (d)). -/
theorem ICache.access_outcomes (c : ICache) (a : Word) :
    (c.access a).hits + (c.access a).misses = c.hits + c.misses + 1 := by
  rw [access_hits, access_misses]; split <;> omega

/-- The slots after an access, as the list holds them (R53). -/
theorem ICache.access_slots_getElem? (c : ICache) (a : Word) (h : 1 ≤ c.size) (j : Nat) :
    (c.access a).slots[j]? =
      if j = slotIndex c.size a then some { valid := true, tag := slotTag c.size a } else c.slots[j]? := by
  have hlt : slotIndex c.size a < c.slots.length := slotIndex_lt h a
  by_cases hh : c.hit a = true
  · obtain ⟨slot, hs, hv, ht⟩ := (c.hit_iff a).mp hh
    rw [ICache.access, if_pos hh]
    split
    · subst j
      rw [hs, ← hv, ← ht]
    · rfl
  · rw [ICache.access, if_neg hh]
    split
    · subst j
      exact List.getElem?_set_self hlt
    · exact List.getElem?_set_ne (Ne.symm ‹_›)

/-- After an access the address's slot is valid and holds its tag; every other slot is as it was (R53). -/
theorem ICache.access_slotAt (c : ICache) (a : Word) (h : 1 ≤ c.size) (j : Nat) :
    (c.access a).slotAt j =
      if j = slotIndex c.size a then { valid := true, tag := slotTag c.size a } else c.slotAt j := by
  simp only [ICache.slotAt, List.getD_eq_getElem?_getD, access_slots_getElem? c a h]
  split <;> rfl

/-- When an access would hit, after another access: the same slot must now hold the tag (R53). -/
theorem ICache.hit_access (c : ICache) (a b : Word) (h : 1 ≤ c.size) :
    (c.access a).hit b =
      if slotIndex c.size b = slotIndex c.size a then slotTag c.size a == slotTag c.size b else c.hit b := by
  unfold ICache.hit
  simp only [access_size, access_slotAt c a h]
  split <;> simp

@[simp] theorem ICache.accessAll_size (c : ICache) (as : List Word) : (c.accessAll as).size = c.size := by
  induction as generalizing c with
  | nil => rfl
  | cons a as ih => exact (ih (c.access a)).trans (access_size c a)

@[simp] theorem ICache.accessAll_cons (c : ICache) (a : Word) (as : List Word) :
    c.accessAll (a :: as) = (c.access a).accessAll as := rfl

@[simp] theorem ICache.accessAll_nil (c : ICache) : c.accessAll [] = c := rfl

end Sys2Proof.Machine
end

