-- ==== Sys2Proof/Laws/Encode.lean ====
section
/-! SUPPORT. The encodings as numbers: each format is the sum of its fields at their places, and each field is read
back from its place. Later proofs about words go through these numbers. -/

namespace Sys2Proof

/-- Two fields side by side, as numbers. -/
theorem append_toNat {m n : Nat} (x : BitVec m) (y : BitVec n) : (x ++ y).toNat = x.toNat * 2 ^ n + y.toNat := by
  rw [BitVec.toNat_append, ← Nat.shiftLeft_add_eq_or_of_lt y.isLt, Nat.shiftLeft_eq]

/-- A field of a word, as a number. -/
theorem field_toNat {n : Nat} (w : BitVec n) (lo len : Nat) :
    (w.extractLsb' lo len).toNat = w.toNat / 2 ^ lo % 2 ^ len := by
  rw [BitVec.extractLsb'_toNat, Nat.shiftRight_eq_div_pow]

/-- The BranchExchange format as a number (R64). -/
theorem bxWord_toNat (cond : BitVec 4) (rm : RegNum) :
    (encode (.bx cond rm)).toNat = cond.toNat * 2 ^ 28 + 0x12FFF10 + rm.toNat := by
  show BitVec.toNat (w := 4 + 24 + 4) _ = _
  simp only [encode, append_toNat, BitVec.toNat_ofNat]
  omega

/-- The Branch format as a number (R65). -/
theorem branchWord_toNat (cond : BitVec 4) (link : BitVec 1) (imm24 : BitVec 24) :
    (branchWord cond link imm24).toNat =
      cond.toNat * 2 ^ 28 + 5 * 2 ^ 25 + link.toNat * 2 ^ 24 + imm24.toNat := by
  show BitVec.toNat (w := 4 + 3 + 1 + 24) _ = _
  simp only [branchWord, append_toNat, BitVec.toNat_ofNat]
  omega

/-- The Multiply format as a number (R66). -/
theorem mulWord_toNat (cond : BitVec 4) (acc : BitVec 2) (rd ra rs rm : RegNum) :
    (encode (.mul cond acc rd ra rs rm)).toNat =
      cond.toNat * 2 ^ 28 + acc.toNat * 2 ^ 20 + rd.toNat * 2 ^ 16 + ra.toNat * 2 ^ 12 + rs.toNat * 2 ^ 8 +
        9 * 2 ^ 4 + rm.toNat := by
  show BitVec.toNat (w := 4 + 6 + 2 + 4 + 4 + 4 + 4 + 4) _ = _
  simp only [encode, append_toNat, BitVec.toNat_ofNat]
  omega

/-- The DataProcessing format as a number (R67). -/
theorem dpWord_toNat (cond : BitVec 4) (i : BitVec 1) (op : BitVec 4) (sb : BitVec 1) (rn rd : RegNum)
    (op2 : BitVec 12) :
    (dpWord cond i op sb rn rd op2).toNat =
      cond.toNat * 2 ^ 28 + i.toNat * 2 ^ 25 + op.toNat * 2 ^ 21 + sb.toNat * 2 ^ 20 + rn.toNat * 2 ^ 16 +
        rd.toNat * 2 ^ 12 + op2.toNat := by
  show BitVec.toNat (w := 4 + 2 + 1 + 4 + 1 + 4 + 4 + 12) _ = _
  simp only [dpWord, append_toNat, BitVec.toNat_ofNat]
  omega

/-- The SingleDataTransfer format as a number (R69). -/
theorem transferWord_toNat (cond : BitVec 4) (i p u b w l : BitVec 1) (rn rd : RegNum) (offset : BitVec 12) :
    (transferWord cond i p u b w l rn rd offset).toNat =
      cond.toNat * 2 ^ 28 + 2 ^ 26 + i.toNat * 2 ^ 25 + p.toNat * 2 ^ 24 + u.toNat * 2 ^ 23 + b.toNat * 2 ^ 22 +
        w.toNat * 2 ^ 21 + l.toNat * 2 ^ 20 + rn.toNat * 2 ^ 16 + rd.toNat * 2 ^ 12 + offset.toNat := by
  show BitVec.toNat (w := 4 + 2 + 1 + 1 + 1 + 1 + 1 + 1 + 4 + 4 + 12) _ = _
  simp only [transferWord, append_toNat, BitVec.toNat_ofNat]
  omega

/-- The first Unknown row as a number (R63). -/
theorem unknown100Word_toNat (cond : BitVec 4) (rest : BitVec 25) :
    (encode (.unknown100 cond rest)).toNat = cond.toNat * 2 ^ 28 + 4 * 2 ^ 25 + rest.toNat := by
  show BitVec.toNat (w := 4 + 3 + 25) _ = _
  simp only [encode, append_toNat, BitVec.toNat_ofNat]
  omega

/-- The second Unknown row as a number (R63). -/
theorem unknown11Word_toNat (cond : BitVec 4) (rest : BitVec 26) :
    (encode (.unknown11 cond rest)).toNat = cond.toNat * 2 ^ 28 + 3 * 2 ^ 26 + rest.toNat := by
  show BitVec.toNat (w := 4 + 2 + 26) _ = _
  simp only [encode, append_toNat, BitVec.toNat_ofNat]
  omega

/-! ### The fields read back from each format -/

/-- The fields of a branch word (R65). -/
theorem branchWord_fields (cond : BitVec 4) (link : BitVec 1) (imm24 : BitVec 24) :
    let w := branchWord cond link imm24
    w.extractLsb' 28 4 = cond ∧ w.extractLsb' 24 1 = link ∧ w.extractLsb' 0 24 = imm24 := by
  have := cond.isLt; have := link.isLt; have := imm24.isLt
  refine ⟨?_, ?_, ?_⟩ <;> apply BitVec.eq_of_toNat_eq <;> simp only [field_toNat, branchWord_toNat] <;> omega

/-- The fields of a data-processing word (R67). -/
theorem dpWord_fields (cond : BitVec 4) (i : BitVec 1) (op : BitVec 4) (sb : BitVec 1) (rn rd : RegNum)
    (op2 : BitVec 12) :
    let w := dpWord cond i op sb rn rd op2
    w.extractLsb' 28 4 = cond ∧ w.extractLsb' 25 1 = i ∧ w.extractLsb' 21 4 = op ∧ w.extractLsb' 20 1 = sb ∧
      w.extractLsb' 16 4 = rn ∧ w.extractLsb' 12 4 = rd ∧ w.extractLsb' 0 12 = op2 ∧
      w.extractLsb' 8 4 = op2.extractLsb' 8 4 ∧ w.extractLsb' 0 8 = op2.extractLsb' 0 8 ∧
      w.extractLsb' 4 8 = op2.extractLsb' 4 8 ∧ w.extractLsb' 0 4 = op2.extractLsb' 0 4 := by
  have := cond.isLt; have := i.isLt; have := op.isLt; have := sb.isLt; have := rn.isLt; have := rd.isLt
  have := op2.isLt
  refine ⟨?_, ?_, ?_, ?_, ?_, ?_, ?_, ?_, ?_, ?_, ?_⟩ <;> apply BitVec.eq_of_toNat_eq <;>
    simp only [field_toNat, dpWord_toNat] <;> omega

/-- The fields of a transfer word (R69). -/
theorem transferWord_fields (cond : BitVec 4) (i p u b wb l : BitVec 1) (rn rd : RegNum) (offset : BitVec 12) :
    let w := transferWord cond i p u b wb l rn rd offset
    w.extractLsb' 28 4 = cond ∧ w.extractLsb' 25 1 = i ∧ w.extractLsb' 24 1 = p ∧ w.extractLsb' 23 1 = u ∧
      w.extractLsb' 22 1 = b ∧ w.extractLsb' 21 1 = wb ∧ w.extractLsb' 20 1 = l ∧ w.extractLsb' 16 4 = rn ∧
      w.extractLsb' 12 4 = rd ∧ w.extractLsb' 0 12 = offset ∧ w.extractLsb' 4 8 = offset.extractLsb' 4 8 ∧
      w.extractLsb' 0 4 = offset.extractLsb' 0 4 := by
  have := cond.isLt; have := i.isLt; have := p.isLt; have := u.isLt; have := b.isLt; have := wb.isLt
  have := l.isLt; have := rn.isLt; have := rd.isLt; have := offset.isLt
  refine ⟨?_, ?_, ?_, ?_, ?_, ?_, ?_, ?_, ?_, ?_, ?_, ?_⟩ <;> apply BitVec.eq_of_toNat_eq <;>
    simp only [field_toNat, transferWord_toNat] <;> omega

/-- The two parts of a twelve-bit second operand: a rotate and an immediate. -/
theorem rotImm_fields (rot : BitVec 4) (imm8 : BitVec 8) :
    (rot ++ imm8).extractLsb' 8 4 = rot ∧ (rot ++ imm8).extractLsb' 0 8 = imm8 := by
  have := rot.isLt; have := imm8.isLt
  constructor <;> apply BitVec.eq_of_toNat_eq <;> simp only [field_toNat, append_toNat] <;> omega

/-- The two parts of a twelve-bit second operand: a shift field and a register. -/
theorem shiftReg_fields (shift : BitVec 8) (rm : RegNum) :
    (shift ++ rm).extractLsb' 4 8 = shift ∧ (shift ++ rm).extractLsb' 0 4 = rm := by
  have := shift.isLt; have := rm.isLt
  constructor <;> apply BitVec.eq_of_toNat_eq <;> simp only [field_toNat, append_toNat] <;> omega

/-- Four bytes as a number (R38). -/
theorem wordOfBytes_toNat (b0 b1 b2 b3 : Byte) :
    (wordOfBytes b0 b1 b2 b3).toNat = b3.toNat * 2 ^ 24 + b2.toNat * 2 ^ 16 + b1.toNat * 2 ^ 8 + b0.toNat := by
  show BitVec.toNat (w := 8 + 8 + 8 + 8) _ = _
  simp only [wordOfBytes, append_toNat]
  omega

/-- The bytes of a word put together again. -/
@[simp] theorem wordOfBytes_byteOfWord (v : Word) :
    wordOfBytes (byteOfWord v 0) (byteOfWord v 1) (byteOfWord v 2) (byteOfWord v 3) = v := by
  apply BitVec.eq_of_toNat_eq
  have := v.isLt
  simp only [wordOfBytes_toNat, byteOfWord, field_toNat]
  omega

/-- The decoder reads the word the bytes spell, and leaves the rest of the stream (R38, R59). -/
theorem decode_wordBytes (w : Word) (rest : List Byte) :
    decode (wordBytes w ++ rest) = .ok (decodeWord w, rest) := by
  simp [decode, wordBytes]

/-- The host's view of the decoder is the decoder on the table's word. -/
theorem decodeTableWord_eq (nbits w : Nat) : decodeTableWord nbits w = some (decodeWord (tableWord nbits w)) := by
  have := decode_wordBytes (tableWord nbits w) []
  rw [List.append_nil] at this
  rw [decodeTableWord, this]

/-! ### The class of a word, as numbers -/

/-- `classify` on the number of the word (R62). -/
theorem classify_toNat (w : Word) :
    classify w =
      if w.toNat / 2 ^ 4 % 2 ^ 24 = 0x12FFF1 then .branchExchange
      else if w.toNat / 2 ^ 25 % 2 ^ 3 = 5 then .branch
      else if w.toNat / 2 ^ 22 % 2 ^ 6 = 0 ∧ w.toNat / 2 ^ 4 % 2 ^ 4 = 9 then .multiply
      else if w.toNat / 2 ^ 26 % 2 ^ 2 = 0 then .dataProcessing
      else if w.toNat / 2 ^ 26 % 2 ^ 2 = 1 then .singleDataTransfer
      else .unknown := by
  simp only [classify, ← BitVec.toNat_inj, field_toNat, BitVec.toNat_ofNat, Nat.reducePow, Nat.reduceMod]

end Sys2Proof
end

