-- ==== Sys2Proof/Laws/Memory.lean ====
section
/-! SUPPORT. The laws of memory: a read after a write, and the canonical form kept by every operation. -/

namespace Sys2Proof.Machine

/-- An address below every listed one reads as zero. -/
theorem Memory.read_absent {m : Memory} {a : Nat} (h : ∀ c ∈ m, a < c.1) : m.read a = 0#8 := by
  induction m with
  | nil => rfl
  | cons c m ih =>
    have := h c (by simp)
    rw [Memory.read, if_neg (by omega)]
    exact ih fun d hd => h d (List.mem_cons_of_mem _ hd)

/-- A write is seen by a read of that address and by no other. -/
@[simp] theorem Memory.read_write (m : Memory) (hm : Memory.wf m) (a b : Nat) (v : Byte) :
    (Memory.write m a v).read b = if b = a then v else m.read b := by
  induction m with
  | nil =>
    by_cases hv : v = 0#8 <;> by_cases hb : b = a <;> simp_all [Memory.write, Memory.read]
    omega
  | cons c m ih =>
    obtain ⟨k, x⟩ := c
    obtain ⟨hs, hz⟩ := hm
    obtain ⟨hk, hs⟩ := List.pairwise_cons.mp hs
    have ih := ih ⟨hs, fun c hc => hz c (List.mem_cons_of_mem _ hc)⟩
    have absent : ∀ q, q ≤ k → Memory.read m q = 0#8 :=
      fun q hq => Memory.read_absent fun c hc => lt_of_le_of_lt hq (hk c hc)
    simp only [Memory.write]
    split
    · rename_i hlt
      split
      · subst v
        by_cases hb : b = a
        · subst b
          simp [Memory.read, absent a (by omega)]
          omega
        · simp [hb]
      · by_cases hb : b = a
        · subst b; simp [Memory.read]
        · simp [Memory.read, hb, Ne.symm hb]
    · split
      · subst a
        split
        · subst v
          by_cases hb : b = k
          · subst hb; simp [absent b (by omega)]
          · simp [Memory.read, hb, Ne.symm hb]
        · by_cases hb : b = k
          · subst hb; simp [Memory.read]
          · simp [Memory.read, hb, Ne.symm hb]
      · rw [Memory.read, ih]
        by_cases hb : b = a
        · subst b; simp; omega
        · simp [Memory.read, hb]

/-- A write is not seen at any other address, in canonical form or not. -/
theorem Memory.read_write_ne (m : Memory) {a b : Nat} (v : Byte) (h : b ≠ a) :
    (Memory.write m a v).read b = m.read b := by
  induction m with
  | nil =>
    simp only [Memory.write]
    split
    · rfl
    · simp [Memory.read, Ne.symm h]
  | cons c m ih =>
    obtain ⟨k, x⟩ := c
    simp only [Memory.write]
    split
    · split
      · rfl
      · simp [Memory.read, Ne.symm h]
    · split
      · subst a
        split <;> simp [Memory.read, Ne.symm h]
      · simp [Memory.read, ih]

/-- A word write is not seen outside its four bytes, in canonical form or not. -/
theorem Memory.read_writeWord_outside (m : Memory) {a b : Nat} (v : Word) (h : b < a ∨ a + 4 ≤ b) :
    (Memory.writeWord m a v).read b = m.read b := by
  rw [Memory.writeWord, read_write_ne _ _ (by omega), read_write_ne _ _ (by omega),
    read_write_ne _ _ (by omega), read_write_ne _ _ (by omega)]

/-- Every listed cell of a written memory was listed, or is the cell written. -/
theorem Memory.mem_write {m : Memory} {a : Nat} {v : Byte} {c : Host.Cell} (h : c ∈ Memory.write m a v) :
    c ∈ m ∨ (c = (a, v) ∧ v ≠ 0#8) := by
  induction m with
  | nil => simp only [Memory.write] at h; split at h <;> simp_all
  | cons d m ih =>
    obtain ⟨k, x⟩ := d
    simp only [Memory.write] at h
    split at h
    · split at h <;> simp_all
      tauto
    · split at h
      · split at h <;> simp_all
        tauto
      · simp only [List.mem_cons] at h ⊢
        rcases h with h | h
        · exact .inl (.inl h)
        · exact (ih h).imp_left .inr

/-- A write keeps the canonical form. -/
theorem Memory.write_wf {m : Memory} (hm : Memory.wf m) (a : Nat) (v : Byte) : Memory.wf (Memory.write m a v) := by
  refine ⟨?_, fun c hc => ?_⟩
  · induction m with
    | nil => simp only [Memory.write]; split <;> simp
    | cons d m ih =>
      obtain ⟨k, x⟩ := d
      obtain ⟨hs, hz⟩ := hm
      obtain ⟨hk, hs'⟩ := List.pairwise_cons.mp hs
      simp only at hk
      simp only [Memory.write]
      split
      · rename_i hlt
        split
        · exact hs
        · refine List.pairwise_cons.mpr ⟨fun c hc => ?_, hs⟩
          rcases List.mem_cons.mp hc with rfl | hc
          · exact hlt
          · exact lt_trans hlt (hk c hc)
      · split
        · subst a
          split
          · exact hs'
          · exact List.pairwise_cons.mpr ⟨hk, hs'⟩
        · refine List.pairwise_cons.mpr ⟨fun c hc => ?_, ih ⟨hs', fun c hc => hz c (List.mem_cons_of_mem _ hc)⟩⟩
          rcases Memory.mem_write hc with hc | ⟨rfl, -⟩
          · exact hk c hc
          · simp only; omega
  · rcases Memory.mem_write hc with hc | ⟨rfl, hv⟩
    · exact hm.2 c hc
    · exact hv

/-- A word write keeps the canonical form. -/
theorem Memory.writeWord_wf {m : Memory} (hm : Memory.wf m) (a : Nat) (v : Word) :
    Memory.wf (Memory.writeWord m a v) :=
  write_wf (write_wf (write_wf (write_wf hm _ _) _ _) _ _) _ _

/-- What a byte reads after a word write: its byte of the word inside, what it was outside (R38, R41). -/
theorem Memory.read_writeWord {m : Memory} (hm : Memory.wf m) (a b : Nat) (v : Word) :
    (Memory.writeWord m a v).read b =
      if a ≤ b ∧ b < a + 4 then byteOfWord v (b - a) else m.read b := by
  have h0 := write_wf hm a (byteOfWord v 0)
  have h1 := write_wf h0 (a + 1) (byteOfWord v 1)
  have h2 := write_wf h1 (a + 2) (byteOfWord v 2)
  rw [Memory.writeWord, read_write _ h2, read_write _ h1, read_write _ h0, read_write _ hm]
  by_cases c3 : b = a + 3
  · subst c3; simp
  by_cases c2 : b = a + 2
  · subst c2; simp
  by_cases c1 : b = a + 1
  · subst c1; simp
  by_cases c0 : b = a
  · subst c0; simp
  rw [if_neg c3, if_neg c2, if_neg c1, if_neg c0, if_neg (by omega)]

/-- Every listed cell of memory after a word write was listed, or is one of the four written. -/
theorem Memory.mem_writeWord {m : Memory} {a : Nat} {v : Word} {c : Host.Cell} (h : c ∈ Memory.writeWord m a v) :
    c ∈ m ∨ (a ≤ c.1 ∧ c.1 < a + 4) := by
  rcases mem_write h with h | ⟨rfl, -⟩
  · rcases mem_write h with h | ⟨rfl, -⟩
    · rcases mem_write h with h | ⟨rfl, -⟩
      · rcases mem_write h with h | ⟨rfl, -⟩
        · exact .inl h
        · right; simp
      · right; simp
    · right; simp
  · right; simp

/-- A word read after a word write at the same address (R38, R48). -/
theorem Memory.readWord_writeWord {m : Memory} (hm : Memory.wf m) (a : Nat) (v : Word) :
    (Memory.writeWord m a v).readWord a = v := by
  simp only [Memory.readWord, read_writeWord hm]
  simp [wordOfBytes_byteOfWord]

/-- The memory that construction builds: canonical, inside its range, reading the bytes it was given (R37). -/
theorem Memory.ofBytes_listed {base : Nat} {bytes : List Byte} {c : Host.Cell}
    (h : c ∈ Memory.ofBytes base bytes) : base ≤ c.1 ∧ c.1 < base + bytes.length ∧ c.2 ≠ 0#8 := by
  induction bytes generalizing base with
  | nil => simp [Memory.ofBytes] at h
  | cons b bytes ih =>
    simp only [Memory.ofBytes] at h
    split at h
    · have := ih h; simp only [List.length_cons]; exact ⟨by omega, by omega, this.2.2⟩
    · rcases List.mem_cons.mp h with rfl | h
      · simp_all
      · have := ih h; simp only [List.length_cons]; exact ⟨by omega, by omega, this.2.2⟩

theorem Memory.ofBytes_wf (base : Nat) (bytes : List Byte) : Memory.wf (Memory.ofBytes base bytes) := by
  refine ⟨?_, fun c hc => (ofBytes_listed hc).2.2⟩
  induction bytes generalizing base with
  | nil => exact .nil
  | cons b bytes ih =>
    simp only [Memory.ofBytes]
    split
    · exact ih _
    · exact List.pairwise_cons.mpr ⟨fun c hc => (ofBytes_listed hc).1, ih _⟩

theorem Memory.ofBytes_below {base a : Nat} (bytes : List Byte) (h : a < base) :
    Memory.read (Memory.ofBytes base bytes) a = 0#8 := by
  induction bytes generalizing base with
  | nil => rfl
  | cons b bytes ih =>
    simp only [Memory.ofBytes]
    split
    · exact ih (by omega)
    · rw [Memory.read, if_neg (by omega)]; exact ih (by omega)

theorem Memory.read_ofBytes (base i : Nat) (bytes : List Byte) :
    Memory.read (Memory.ofBytes base bytes) (base + i) = bytes.getD i 0#8 := by
  induction bytes generalizing base i with
  | nil => rfl
  | cons b bytes ih =>
    simp only [Memory.ofBytes]
    cases i with
    | zero =>
      split
      · rename_i hb; rw [ofBytes_below _ (by omega)]; simp [hb]
      · simp [Memory.read]
    | succ i =>
      have h := ih (base + 1) i
      rw [show base + 1 + i = base + (i + 1) by omega] at h
      split
      · rw [h]; simp
      · rw [Memory.read, if_neg (by omega), h]; simp

end Sys2Proof.Machine
end

