-- ==== Sys2Proof/Laws/State.lean ====
section
/-! SUPPORT. One lemma per field per update of the state, so that no later proof unfolds an update. -/

namespace Sys2Proof.Machine

/-- The link register is not the program counter (R15). -/
@[simp] theorem lr_ne_pc : RegNum.lr ≠ RegNum.pc := by decide

/-! ### A register write -/

@[simp] theorem Session.setReg_flags (t : Session) (r : RegNum) (v : Word) : (t.setReg r v).flags = t.flags := rfl

@[simp] theorem Session.setReg_cnt (t : Session) (r : RegNum) (v : Word) : (t.setReg r v).cnt = t.cnt := rfl

@[simp] theorem Session.setReg_mem (t : Session) (r : RegNum) (v : Word) : (t.setReg r v).mem = t.mem := rfl

@[simp] theorem Session.setReg_icache (t : Session) (r : RegNum) (v : Word) : (t.setReg r v).icache = t.icache := rfl

@[simp] theorem Session.setReg_cfg (t : Session) (r : RegNum) (v : Word) : (t.setReg r v).cfg = t.cfg := rfl

/-- A register write is seen by a read of that register and by no other. -/
@[simp] theorem Session.reg_setReg (t : Session) (r q : RegNum) (v : Word) :
    (t.setReg r v).reg q = if q = r then v else t.reg q := by
  simp only [Session.reg, Session.setReg, Vector.getElem_set]
  split <;> rename_i h
  · rw [if_pos (BitVec.eq_of_toNat_eq h.symm)]
  · rw [if_neg fun e : q = r => h (e ▸ rfl)]

/-! ### Completing an instruction -/

@[simp] theorem Session.complete_flags (t : Session) (k : Counter) (v : Word) : (t.complete k v).flags = t.flags := rfl

@[simp] theorem Session.complete_cnt (t : Session) (k : Counter) (v : Word) : (t.complete k v).cnt = t.cnt.bump k := rfl

@[simp] theorem Session.complete_mem (t : Session) (k : Counter) (v : Word) : (t.complete k v).mem = t.mem := rfl

@[simp] theorem Session.complete_icache (t : Session) (k : Counter) (v : Word) :
    (t.complete k v).icache = t.icache := rfl

@[simp] theorem Session.complete_cfg (t : Session) (k : Counter) (v : Word) : (t.complete k v).cfg = t.cfg := rfl

@[simp] theorem Session.reg_complete (t : Session) (k : Counter) (v : Word) (q : RegNum) :
    (t.complete k v).reg q = if q = RegNum.pc then v else t.reg q :=
  Session.reg_setReg { t with cnt := t.cnt.bump k } RegNum.pc q v

@[simp] theorem Session.pc_complete (t : Session) (k : Counter) (v : Word) : (t.complete k v).pc = v := by
  simp [Session.pc]

/-- Completing an instruction makes the session one instruction longer, whatever the counter (R26). -/
@[simp] theorem Session.completed_complete (t : Session) (k : Counter) (v : Word) :
    (t.complete k v).completed = t.completed + 1 := by
  cases k <;> simp [Session.completed, Counters.bump] <;> omega

@[simp] theorem Session.completed_setReg (t : Session) (r : RegNum) (v : Word) :
    (t.setReg r v).completed = t.completed := rfl

/-! ### Writing flags, memory, or the cache model -/

@[simp] theorem Session.reg_withFlags (t : Session) (f : Flags) (r : RegNum) :
    { t with flags := f }.reg r = t.reg r := rfl

@[simp] theorem Session.pc_withFlags (t : Session) (f : Flags) : { t with flags := f }.pc = t.pc := rfl

@[simp] theorem Session.completed_withFlags (t : Session) (f : Flags) :
    { t with flags := f }.completed = t.completed := rfl

@[simp] theorem Session.reg_withMem (t : Session) (m : Memory) (r : RegNum) :
    { t with mem := m }.reg r = t.reg r := rfl

@[simp] theorem Session.pc_withMem (t : Session) (m : Memory) : { t with mem := m }.pc = t.pc := rfl

@[simp] theorem Session.completed_withMem (t : Session) (m : Memory) :
    { t with mem := m }.completed = t.completed := rfl

@[simp] theorem Session.reg_withICache (t : Session) (c : ICache) (r : RegNum) :
    { t with icache := c }.reg r = t.reg r := rfl

@[simp] theorem Session.pc_withICache (t : Session) (c : ICache) : { t with icache := c }.pc = t.pc := rfl

@[simp] theorem Session.completed_withICache (t : Session) (c : ICache) :
    { t with icache := c }.completed = t.completed := rfl

@[simp] theorem Session.cacheAccess_flags (t : Session) (a : Word) : (t.cacheAccess a).flags = t.flags := rfl

@[simp] theorem Session.cacheAccess_cnt (t : Session) (a : Word) : (t.cacheAccess a).cnt = t.cnt := rfl

@[simp] theorem Session.cacheAccess_mem (t : Session) (a : Word) : (t.cacheAccess a).mem = t.mem := rfl

@[simp] theorem Session.cacheAccess_icache (t : Session) (a : Word) :
    (t.cacheAccess a).icache = t.icache.access a := rfl

@[simp] theorem Session.cacheAccess_cfg (t : Session) (a : Word) : (t.cacheAccess a).cfg = t.cfg := rfl

@[simp] theorem Session.reg_cacheAccess (t : Session) (a : Word) (r : RegNum) : (t.cacheAccess a).reg r = t.reg r := rfl

@[simp] theorem Session.pc_cacheAccess (t : Session) (a : Word) : (t.cacheAccess a).pc = t.pc := rfl

@[simp] theorem Session.completed_cacheAccess (t : Session) (a : Word) :
    (t.cacheAccess a).completed = t.completed := rfl

/-! ### The link register -/

@[simp] theorem Session.link_flags (t : Session) (l : Bool) : (t.link l).flags = t.flags := by
  cases l <;> rfl

@[simp] theorem Session.link_cnt (t : Session) (l : Bool) : (t.link l).cnt = t.cnt := by
  cases l <;> rfl

@[simp] theorem Session.link_mem (t : Session) (l : Bool) : (t.link l).mem = t.mem := by
  cases l <;> rfl

@[simp] theorem Session.link_icache (t : Session) (l : Bool) : (t.link l).icache = t.icache := by
  cases l <;> rfl

@[simp] theorem Session.link_cfg (t : Session) (l : Bool) : (t.link l).cfg = t.cfg := by
  cases l <;> rfl

@[simp] theorem Session.completed_link (t : Session) (l : Bool) : (t.link l).completed = t.completed := by
  cases l <;> rfl

@[simp] theorem Session.reg_link (t : Session) (l : Bool) (q : RegNum) :
    (t.link l).reg q = if q = RegNum.lr ∧ l = true then t.pc + 4#32 else t.reg q := by
  cases l <;> simp [Session.link]

/-! ### Taking a fault -/

@[simp] theorem raise_session (s : State) (f : StepFault) : (raise s f).session = s.session := rfl

@[simp] theorem raise_status (s : State) (f : StepFault) :
    (raise s f).status = .failed { fault := f, state := s.session } := rfl

/-- Taking a fault is the failing outcome the claims speak of (R134). -/
theorem next_raise (s : State) (f : StepFault) : .next (raise s f) = failsWith s f := rfl

@[simp] theorem StepFault.withWord_kind (f : StepFault) (w : Word) : (f.withWord w).kind = f.kind := by
  cases f <;> rfl

@[simp] theorem StepFault.withWord_pc (f : StepFault) (w : Word) : (f.withWord w).pc = f.pc := by
  cases f <;> rfl

@[simp] theorem StepFault.withWord_word (f : StepFault) (w : Word) : (f.withWord w).word = f.word.map fun _ => w := by
  cases f <;> rfl

@[simp] theorem StepFault.withWord_addressAccess (f : StepFault) (w : Word) :
    (f.withWord w).addressAccess = f.addressAccess := by
  cases f <;> rfl

@[simp] theorem StepFault.withWord_reason (f : StepFault) (w : Word) : (f.withWord w).reason = f.reason := by
  cases f <;> rfl

/-! ### Placing an instruction -/

@[simp] theorem State.withFetchWord_status (s : State) (n w : Nat) : (s.withFetchWord n w).status = s.status := rfl

@[simp] theorem State.withFetchWord_reg (s : State) (n w : Nat) (r : RegNum) :
    (s.withFetchWord n w).session.reg r = s.session.reg r := rfl

@[simp] theorem State.withFetchWord_mem (s : State) (n w : Nat) :
    (s.withFetchWord n w).session.mem = s.session.mem.writeWord s.session.pc.toNat (tableWord n w) := rfl

end Sys2Proof.Machine
end

