-- ==== Sys2Proof/Laws/Ops.lean ====
section
/-! SUPPORT. One lemma per shared operation, saying once what it can do. -/

namespace Sys2Proof.Machine

/-- The `r15` check: it fails with `PcOperand`, or it lets the instruction go on (R90, R91). -/
theorem Session.guardPc_cases (t : Session) (w : Word) (named : List RegNum) (go : Except StepFault Session) :
    (RegNum.pc ∈ named ∧ t.guardPc w named go = .error (t.unsupported w .pcOperand)) ∨
    (RegNum.pc ∉ named ∧ t.guardPc w named go = go) := by
  unfold Session.guardPc
  split
  · exact .inl ⟨‹_›, rfl⟩
  · exact .inr ⟨‹_›, rfl⟩

theorem Session.guardPc_pos {t : Session} {named : List RegNum} (h : RegNum.pc ∈ named) (w : Word)
    (go : Except StepFault Session) : t.guardPc w named go = .error (t.unsupported w .pcOperand) := if_pos h

theorem Session.guardPc_neg {t : Session} {named : List RegNum} (h : RegNum.pc ∉ named) (w : Word)
    (go : Except StepFault Session) : t.guardPc w named go = go := if_neg h

@[simp] theorem finish_ok (s : State) (t : Session) : finish s (.ok t) = .next { s with session := t } := rfl

@[simp] theorem finish_error (s : State) (f : StepFault) : finish s (.error f) = failsWith s f := rfl

/-- A word read: the word, or the first check that fails (R40). -/
theorem Session.memReadWord_cases (t : Session) (k : Access) (a : Word) :
    (a.toNat % 4 ≠ 0 ∧ t.memReadWord k a = .error (.misalignedAccess t.pc a k)) ∨
    (a.toNat % 4 = 0 ∧ ¬ t.cfg.InImage a 4 ∧ t.memReadWord k a = .error (.outOfBounds t.pc a k)) ∨
    (a.toNat % 4 = 0 ∧ t.cfg.InImage a 4 ∧ t.memReadWord k a = .ok (t.mem.readWord a.toNat)) := by
  unfold Session.memReadWord
  split
  · exact .inl ⟨‹_›, rfl⟩
  · split
    · exact .inr (.inr ⟨by omega, ‹_›, rfl⟩)
    · exact .inr (.inl ⟨by omega, ‹_›, rfl⟩)

theorem Session.memReadWord_ok {t : Session} {a : Word} (h4 : a.toNat % 4 = 0) (hi : t.cfg.InImage a 4)
    (k : Access) : t.memReadWord k a = .ok (t.mem.readWord a.toNat) := by
  rw [Session.memReadWord, if_neg (by omega), if_pos hi]

/-- A byte read: the byte, or a bounds failure (R40). -/
theorem Session.memReadByte_cases (t : Session) (k : Access) (a : Word) :
    (¬ t.cfg.InImage a 1 ∧ t.memReadByte k a = .error (.outOfBounds t.pc a k)) ∨
    (t.cfg.InImage a 1 ∧ t.memReadByte k a = .ok ((t.mem.read a.toNat).setWidth 32)) := by
  unfold Session.memReadByte
  split
  · exact .inr ⟨‹_›, rfl⟩
  · exact .inl ⟨‹_›, rfl⟩

theorem Session.memReadByte_ok {t : Session} {a : Word} (hi : t.cfg.InImage a 1) (k : Access) :
    t.memReadByte k a = .ok ((t.mem.read a.toNat).setWidth 32) := if_pos hi

/-- A word write: memory with the word in it and nothing else changed, or the first check that fails (R41). -/
theorem Session.memWriteWord_cases (t : Session) (a v : Word) :
    (a.toNat % 4 ≠ 0 ∧ t.memWriteWord a v = .error (.misalignedAccess t.pc a .store)) ∨
    (a.toNat % 4 = 0 ∧ ¬ t.cfg.InImage a 4 ∧ t.memWriteWord a v = .error (.outOfBounds t.pc a .store)) ∨
    (a.toNat % 4 = 0 ∧ t.cfg.InImage a 4 ∧
      t.memWriteWord a v = .ok { t with mem := t.mem.writeWord a.toNat v }) := by
  unfold Session.memWriteWord
  split
  · exact .inl ⟨‹_›, rfl⟩
  · split
    · exact .inr (.inr ⟨by omega, ‹_›, rfl⟩)
    · exact .inr (.inl ⟨by omega, ‹_›, rfl⟩)

theorem Session.memWriteWord_ok {t : Session} {a : Word} (h4 : a.toNat % 4 = 0) (hi : t.cfg.InImage a 4)
    (v : Word) : t.memWriteWord a v = .ok { t with mem := t.mem.writeWord a.toNat v } := by
  rw [Session.memWriteWord, if_neg (by omega), if_pos hi]

/-- The condition evaluation says what R114 says. -/
theorem condHolds_iff (f : Flags) (c : Cond) : condHolds f c = true ↔ CondMeaning f c := by
  obtain ⟨n, z, _, v⟩ := f
  cases c <;> cases n <;> cases z <;> cases v <;> simp [condHolds, CondMeaning]

end Sys2Proof.Machine
end

