-- ==== Sys2Proof/Laws/Exec.lean ====
section
/-! SUPPORT. What an instruction can do, said once: it completes with a session, or it takes a fault; and the shared
forms, one lemma each. -/

namespace Sys2Proof.Machine

/-- A data-processing form that writes `rd`, once its register fields are not 15. -/
theorem aluSub_ok {w : Word} {rn rd : RegNum} {op2 : Operand2} (h : RegNum.pc ∉ rn :: rd :: op2.regs) (s : State) :
    aluSub w rn rd op2 s =
      .next { s with
        session := (s.session.setReg rd (s.session.reg rn - op2.value s.session)).completeComputation
          s.session.pc } := by
  rw [aluSub, Session.guardPc_neg h, finish_ok]

theorem aluAdd_ok {w : Word} {rn rd : RegNum} {op2 : Operand2} (h : RegNum.pc ∉ rn :: rd :: op2.regs) (s : State) :
    aluAdd w rn rd op2 s =
      .next { s with
        session := (s.session.setReg rd (s.session.reg rn + op2.value s.session)).completeComputation
          s.session.pc } := by
  rw [aluAdd, Session.guardPc_neg h, finish_ok]

theorem aluCmp_ok {w : Word} {rn : RegNum} {op2 : Operand2} (h : RegNum.pc ∉ rn :: op2.regs) (s : State) :
    aluCmp w rn op2 s =
      .next { s with
        session := { s.session with
          flags := cmpFlags (s.session.reg rn) (op2.value s.session) }.completeComputation s.session.pc } := by
  rw [aluCmp, Session.guardPc_neg h, finish_ok]

theorem aluMov_ok {w : Word} {rd : RegNum} {op2 : Operand2} (h : RegNum.pc ∉ rd :: op2.regs) (s : State) :
    aluMov w rd op2 s =
      .next { s with session := (s.session.setReg rd (op2.value s.session)).completeComputation s.session.pc } := by
  rw [aluMov, Session.guardPc_neg h, finish_ok]

/-- `mul`, once its register fields are not 15 (R109). -/
theorem execMul_ok {rd rs rm : RegNum} (h : RegNum.pc ∉ [rm, rs, rd]) (cond : BitVec 4) (acc : BitVec 2) (ra : RegNum)
    (s : State) :
    execMul cond acc rd ra rs rm s =
      .next { s with
        session := (s.session.setReg rd
          (BitVec.ofNat 32 ((s.session.reg rm).toNat * (s.session.reg rs).toNat))).complete .computation
            (s.session.pc + 4#32) } := by
  rw [execMul, Session.guardPc_neg h, finish_ok]

/-- `bx`, once its register field is not 15 (R120). -/
theorem execBx_ok {rm : RegNum} (h : RegNum.pc ∉ [rm]) (cond : BitVec 4) (s : State) :
    execBx cond rm s = .next { s with session := s.session.complete .taken (s.session.reg rm) } := by
  rw [execBx, Session.guardPc_neg h, finish_ok]

/-- A branch whose condition holds (R118). -/
theorem branch_taken {c : Cond} {s : State} (h : condHolds s.session.flags c = true) (link : Bool)
    (imm24 : BitVec 24) :
    branch c link imm24 s =
      .next { s with session := (s.session.link link).complete .taken (branchTarget s.session.pc imm24) } := by
  rw [branch, if_pos h, finish_ok]

/-- A branch whose condition does not hold (R119). -/
theorem branch_not_taken {c : Cond} {s : State} (h : ¬ condHolds s.session.flags c = true) (link : Bool)
    (imm24 : BitVec 24) :
    branch c link imm24 s = .next { s with session := s.session.complete .notTaken (s.session.pc + 4#32) } := by
  rw [branch, if_neg h, finish_ok]

/-- The eight branch instructions are one meaning (R118). -/
theorem exec_branchInstr (c : Cond) (link : Bool) (imm24 : BitVec 24) (s : State) :
    exec (branchInstr c link imm24) s = branch c link imm24 s := by
  cases c <;> cases link <;> rfl

/-- A load, once its register fields are not 15: the memory access decides (R126). -/
theorem loadWord_eq {rn rd : RegNum} {off : Offset} (h : RegNum.pc ∉ rn :: rd :: off.regs) (w : Word) (s : State) :
    loadWord w rn rd off s =
      finish s (s.session.completeLoad rd (s.session.memReadWord .load (effectiveAddress s.session rn off))) := by
  rw [loadWord, Session.guardPc_neg h]

theorem loadByte_eq {rn rd : RegNum} {off : Offset} (h : RegNum.pc ∉ rn :: rd :: off.regs) (w : Word) (s : State) :
    loadByte w rn rd off s =
      finish s (s.session.completeLoad rd (s.session.memReadByte .load (effectiveAddress s.session rn off))) := by
  rw [loadByte, Session.guardPc_neg h]

/-- A store, once its register fields are not 15: the memory access decides (R128). -/
theorem storeWord_eq {rn rd : RegNum} {off : Offset} (h : RegNum.pc ∉ rn :: rd :: off.regs) (w : Word) (s : State) :
    storeWord w rn rd off s =
      finish s (completeStore s.session.pc
        (s.session.memWriteWord (effectiveAddress s.session rn off) (s.session.reg rd))) := by
  rw [storeWord, Session.guardPc_neg h]

/-- A running session's store that completes: its address is aligned and in the image, its register fields are not 15,
and memory holds the register's word there (R125, R128). -/
theorem storeWord_completed {w : Word} {rn rd : RegNum} {off : Offset} {s : State} {t : Session}
    (hr : s.status = .running) (h : storeWord w rn rd off s = .next { s with session := t }) :
    let ea := effectiveAddress s.session rn off
    RegNum.pc ∉ rn :: rd :: off.regs ∧ ea.toNat % 4 = 0 ∧ s.session.cfg.InImage ea 4 ∧
      t = { s.session with mem := s.session.mem.writeWord ea.toNat (s.session.reg rd) }.complete .memory
        (s.session.pc + 4#32) := by
  have running : ∀ f, failsWith s f ≠ .next { s with session := t } := by
    intro f e
    simp [failsWith, hr] at e
  by_cases hg : RegNum.pc ∈ rn :: rd :: off.regs
  · rw [storeWord, Session.guardPc_pos hg] at h
    exact absurd h (running _)
  · rw [storeWord_eq hg] at h
    rcases s.session.memWriteWord_cases (effectiveAddress s.session rn off) (s.session.reg rd) with
      ⟨_, e⟩ | ⟨_, _, e⟩ | ⟨h4, hi, e⟩ <;> rw [e] at h
    · exact absurd h (running _)
    · exact absurd h (running _)
    · simp only [completeStore, finish_ok, Host.Outcome.next.injEq, State.mk.injEq, and_true] at h
      exact ⟨hg, h4, hi, h.symm⟩

/-- Everything an instruction can do to a session beside the values it writes, packaged: `t` is what the completed
instruction `i` leaves of `a`. -/
structure Completion (i : Instr) (a t : Session) : Prop where
  /-- Registers beside the program counter and the written ones are kept. -/
  regs : RegsKeptBut (RegNum.pc :: writtenRegs i) a t
  icache : t.icache = a.icache
  cfg : t.cfg = a.cfg
  /-- One counter grows by one. -/
  counted : ∃ k, t.cnt = a.cnt.bump k
  /-- Memory is kept, or it holds one more word, aligned and inside the image. -/
  memory : t.mem = a.mem ∨
    ∃ (ea v : Word), ea.toNat % 4 = 0 ∧ a.cfg.InImage ea 4 ∧ t.mem = a.mem.writeWord ea.toNat v

theorem Completion.completed {i : Instr} {a t : Session} (h : Completion i a t) :
    t.completed = a.completed + 1 := by
  obtain ⟨k, hk⟩ := h.counted
  unfold Session.completed
  rw [hk]
  cases k <;> simp [Counters.bump] <;> omega

section

variable (i : Instr) (s : State)

/-- An instruction's answer: a completion, or a fault that names the program counter. -/
def Answers (o : Host.Outcome State Fault Refusal) : Prop :=
  (∃ t, o = .next { s with session := t } ∧ Completion i s.session t) ∨
  (∃ f, o = failsWith s f ∧ f.pc = s.session.pc)

end

/-- The `r15` check in front of a completion: still a completion or a fault. -/
theorem answers_guardPc {i : Instr} {s : State} {w : Word} {named : List RegNum} {go : Except StepFault Session}
    (h : RegNum.pc ∉ named → Answers i s (finish s go)) : Answers i s (finish s (s.session.guardPc w named go)) := by
  rcases s.session.guardPc_cases w named go with ⟨_, e⟩ | ⟨hn, e⟩
  · rw [e]; exact .inr ⟨_, rfl, rfl⟩
  · rw [e]; exact h hn

theorem answers_aluSub {i : Instr} {rd : RegNum} (hw : writtenRegs i = [rd]) (w : Word) (rn : RegNum) (op2 : Operand2)
    (s : State) : Answers i s (aluSub w rn rd op2 s) :=
  answers_guardPc fun _ => .inl ⟨_, rfl, {
    regs := fun r hr => by simp_all [Session.completeComputation]
    icache := rfl
    cfg := rfl
    counted := ⟨.computation, rfl⟩
    memory := .inl rfl }⟩

theorem answers_aluAdd {i : Instr} {rd : RegNum} (hw : writtenRegs i = [rd]) (w : Word) (rn : RegNum) (op2 : Operand2)
    (s : State) : Answers i s (aluAdd w rn rd op2 s) :=
  answers_guardPc fun _ => .inl ⟨_, rfl, {
    regs := fun r hr => by simp_all [Session.completeComputation]
    icache := rfl
    cfg := rfl
    counted := ⟨.computation, rfl⟩
    memory := .inl rfl }⟩

theorem answers_aluCmp (i : Instr) (w : Word) (rn : RegNum) (op2 : Operand2) (s : State) :
    Answers i s (aluCmp w rn op2 s) :=
  answers_guardPc fun _ => .inl ⟨_, rfl, {
    regs := fun r hr => by simp_all [Session.completeComputation]
    icache := rfl
    cfg := rfl
    counted := ⟨.computation, rfl⟩
    memory := .inl rfl }⟩

theorem answers_aluMov {i : Instr} {rd : RegNum} (hw : writtenRegs i = [rd]) (w : Word) (op2 : Operand2)
    (s : State) : Answers i s (aluMov w rd op2 s) :=
  answers_guardPc fun _ => .inl ⟨_, rfl, {
    regs := fun r hr => by simp_all [Session.completeComputation]
    icache := rfl
    cfg := rfl
    counted := ⟨.computation, rfl⟩
    memory := .inl rfl }⟩

theorem answers_aluNoop (i : Instr) (s : State) : Answers i s (aluNoop s) :=
  .inl ⟨_, rfl, {
    regs := fun r hr => by simp_all [Session.completeComputation]
    icache := rfl
    cfg := rfl
    counted := ⟨.computation, rfl⟩
    memory := .inl rfl }⟩

theorem answers_branch {i : Instr} {link : Bool} (hw : link = true → writtenRegs i = [RegNum.lr]) (c : Cond)
    (imm24 : BitVec 24) (s : State) : Answers i s (branch c link imm24 s) := by
  unfold branch
  dsimp only
  split
  · refine .inl ⟨_, rfl, ?_, by simp, by simp, ⟨.taken, by simp⟩, .inl (by simp)⟩
    intro r hr
    cases link <;> simp_all
  · exact .inl ⟨_, rfl, fun r hr => by simp_all, rfl, rfl, ⟨.notTaken, rfl⟩, .inl rfl⟩

theorem answers_loadWord {i : Instr} {rd : RegNum} (hw : writtenRegs i = [rd]) (w : Word) (rn : RegNum) (off : Offset)
    (s : State) : Answers i s (loadWord w rn rd off s) := by
  refine answers_guardPc fun _ => ?_
  rcases s.session.memReadWord_cases .load (effectiveAddress s.session rn off) with ⟨_, e⟩ | ⟨_, _, e⟩ | ⟨_, _, e⟩
  · rw [e]; exact .inr ⟨_, rfl, rfl⟩
  · rw [e]; exact .inr ⟨_, rfl, rfl⟩
  · rw [e]
    exact .inl ⟨_, rfl, fun r hr => by simp_all, rfl, rfl, ⟨.memory, rfl⟩, .inl rfl⟩

theorem answers_loadByte {i : Instr} {rd : RegNum} (hw : writtenRegs i = [rd]) (w : Word) (rn : RegNum) (off : Offset)
    (s : State) : Answers i s (loadByte w rn rd off s) := by
  refine answers_guardPc fun _ => ?_
  rcases s.session.memReadByte_cases .load (effectiveAddress s.session rn off) with ⟨_, e⟩ | ⟨_, e⟩
  · rw [e]; exact .inr ⟨_, rfl, rfl⟩
  · rw [e]
    exact .inl ⟨_, rfl, fun r hr => by simp_all, rfl, rfl, ⟨.memory, rfl⟩, .inl rfl⟩

theorem answers_storeWord (i : Instr) (w : Word) (rn rd : RegNum) (off : Offset) (s : State) :
    Answers i s (storeWord w rn rd off s) := by
  refine answers_guardPc fun _ => ?_
  rcases s.session.memWriteWord_cases (effectiveAddress s.session rn off) (s.session.reg rd) with
    ⟨_, e⟩ | ⟨_, _, e⟩ | ⟨h4, hi, e⟩
  · rw [e]; exact .inr ⟨_, rfl, rfl⟩
  · rw [e]; exact .inr ⟨_, rfl, rfl⟩
  · rw [e]
    exact .inl ⟨_, rfl, fun r hr => by simp_all, rfl, rfl, ⟨.memory, rfl⟩, .inr ⟨_, _, h4, hi, rfl⟩⟩

/-- Everything an instruction can do: complete, with one counter, the registers it names and at most one stored word,
or take a fault that changes nothing else (R82, R88, R92). -/
theorem exec_answers (i : Instr) (s : State) : Answers i s (exec i s) := by
  cases i
  case bx => exact answers_guardPc fun _ => .inl ⟨_, rfl, fun r hr => by simp_all, rfl, rfl, ⟨.taken, rfl⟩, .inl rfl⟩
  case mul =>
    exact answers_guardPc fun _ =>
      .inl ⟨_, rfl, fun r hr => by simp_all [writtenRegs], rfl, rfl, ⟨.computation, rfl⟩, .inl rfl⟩
  case beq => exact answers_branch (by simp) _ _ s
  case bne => exact answers_branch (by simp) _ _ s
  case blt => exact answers_branch (by simp) _ _ s
  case bgt => exact answers_branch (by simp) _ _ s
  case bleq => exact answers_branch (fun _ => rfl) _ _ s
  case blne => exact answers_branch (fun _ => rfl) _ _ s
  case bllt => exact answers_branch (fun _ => rfl) _ _ s
  case blgt => exact answers_branch (fun _ => rfl) _ _ s
  case subImm => exact answers_aluSub rfl _ _ _ s
  case subReg => exact answers_aluSub rfl _ _ _ s
  case addImm => exact answers_aluAdd rfl _ _ _ s
  case addReg => exact answers_aluAdd rfl _ _ _ s
  case cmpImm => exact answers_aluCmp _ _ _ _ s
  case cmpReg => exact answers_aluCmp _ _ _ _ s
  case movImm => exact answers_aluMov rfl _ _ s
  case movReg => exact answers_aluMov rfl _ _ s
  case ldrImm => exact answers_loadWord rfl _ _ _ s
  case ldrReg => exact answers_loadWord rfl _ _ _ s
  case ldrbImm => exact answers_loadByte rfl _ _ _ s
  case ldrbReg => exact answers_loadByte rfl _ _ _ s
  case strImm => exact answers_storeWord _ _ _ _ _ s
  case strReg => exact answers_storeWord _ _ _ _ _ s
  case branchUnsupported => exact .inr ⟨_, rfl, rfl⟩
  case strbUnsupported => exact .inr ⟨_, rfl, rfl⟩
  case unknown100 => exact .inr ⟨_, rfl, rfl⟩
  case unknown11 => exact .inr ⟨_, rfl, rfl⟩
  all_goals exact answers_aluNoop _ s

end Sys2Proof.Machine
end

