-- ==== Sys2Proof/Laws/PerInstr.lean ====
section
/-! SUPPORT. The family ClassOfWord: the word of a well-formed instruction is of the class its row of the opcode table
names (spec/30_encoding.md R62, R63). One lemma per constructor of Instr. -/

namespace Sys2Proof

/-- A branch word is of class Branch (R62). -/
theorem classify_branchWord (cond : BitVec 4) (link : BitVec 1) (imm24 : BitVec 24) :
    classify (branchWord cond link imm24) = .branch := by
  have := cond.isLt; have := link.isLt; have := imm24.isLt
  rw [classify_toNat, branchWord_toNat, if_neg (by omega), if_pos (by omega)]

/-- A transfer word is of class SingleDataTransfer (R62). -/
theorem classify_transferWord (cond : BitVec 4) (i p u b w l : BitVec 1) (rn rd : RegNum) (offset : BitVec 12) :
    classify (transferWord cond i p u b w l rn rd offset) = .singleDataTransfer := by
  have := cond.isLt; have := i.isLt; have := p.isLt; have := u.isLt; have := b.isLt; have := w.isLt
  have := l.isLt; have := rn.isLt; have := rd.isLt; have := offset.isLt
  rw [classify_toNat, transferWord_toNat, if_neg (by omega), if_neg (by omega), if_neg (by omega),
    if_neg (by omega), if_pos (by omega)]

/-- A data-processing word is of class DataProcessing, unless it spells one of the two patterns of higher priority
(R62, R63). -/
theorem classify_dpWord (cond : BitVec 4) (i : BitVec 1) (op : BitVec 4) (sb : BitVec 1) (rn rd : RegNum)
    (op2 : BitVec 12) (hb : op = 9#4 → looksBranchExchange i sb rn rd op2 = false)
    (hm : op = 0#4 ∨ op = 1#4 → looksMultiply i op2 = false) :
    classify (dpWord cond i op sb rn rd op2) = .dataProcessing := by
  have := cond.isLt; have := i.isLt; have := op.isLt; have := sb.isLt; have := rn.isLt; have := rd.isLt
  have := op2.isLt
  simp only [looksBranchExchange, looksMultiply, Bool.and_eq_false_iff, beq_eq_false_iff_ne, ne_eq,
    ← BitVec.toNat_inj, field_toNat, BitVec.toNat_ofNat, Nat.reducePow, Nat.reduceMod] at hb hm
  rw [classify_toNat, dpWord_toNat, if_neg (by omega), if_neg (by omega), if_neg (by omega), if_pos (by omega)]

namespace Laws.ClassOfWord

/-- The statement of the family. -/
def Statement (i : Instr) : Prop :=
  i.wf = true → classify (encode i) = i.cls

theorem bx : ∀ cond rm, Statement (.bx cond rm) := by
  intro cond rm _
  have := cond.isLt; have := rm.isLt
  rw [classify_toNat, bxWord_toNat, if_pos (by omega)]
  rfl

theorem beq : ∀ imm24, Statement (.beq imm24) :=
  fun _ _ => classify_branchWord _ _ _

theorem bne : ∀ imm24, Statement (.bne imm24) :=
  fun _ _ => classify_branchWord _ _ _

theorem blt : ∀ imm24, Statement (.blt imm24) :=
  fun _ _ => classify_branchWord _ _ _

theorem bgt : ∀ imm24, Statement (.bgt imm24) :=
  fun _ _ => classify_branchWord _ _ _

theorem bleq : ∀ imm24, Statement (.bleq imm24) :=
  fun _ _ => classify_branchWord _ _ _

theorem blne : ∀ imm24, Statement (.blne imm24) :=
  fun _ _ => classify_branchWord _ _ _

theorem bllt : ∀ imm24, Statement (.bllt imm24) :=
  fun _ _ => classify_branchWord _ _ _

theorem blgt : ∀ imm24, Statement (.blgt imm24) :=
  fun _ _ => classify_branchWord _ _ _

theorem branchUnsupported : ∀ cond link imm24, Statement (.branchUnsupported cond link imm24) :=
  fun _ _ _ _ => classify_branchWord _ _ _

theorem mul : ∀ cond acc rd ra rs rm, Statement (.mul cond acc rd ra rs rm) := by
  intro cond acc rd ra rs rm _
  have := cond.isLt; have := acc.isLt; have := rd.isLt; have := ra.isLt; have := rs.isLt; have := rm.isLt
  rw [classify_toNat, mulWord_toNat, if_neg (by omega), if_neg (by omega), if_pos (by omega)]
  rfl

theorem subImm : ∀ cond sb rn rd rot imm8, Statement (.subImm cond sb rn rd rot imm8) :=
  fun _ _ _ _ _ _ _ => classify_dpWord _ _ _ _ _ _ _ (fun h => absurd h (by decide)) (fun h => absurd h (by decide))

theorem subReg : ∀ cond sb rn rd shift rm, Statement (.subReg cond sb rn rd shift rm) :=
  fun _ _ _ _ _ _ _ => classify_dpWord _ _ _ _ _ _ _ (fun h => absurd h (by decide)) (fun h => absurd h (by decide))

theorem addImm : ∀ cond sb rn rd rot imm8, Statement (.addImm cond sb rn rd rot imm8) :=
  fun _ _ _ _ _ _ _ => classify_dpWord _ _ _ _ _ _ _ (fun h => absurd h (by decide)) (fun h => absurd h (by decide))

theorem addReg : ∀ cond sb rn rd shift rm, Statement (.addReg cond sb rn rd shift rm) :=
  fun _ _ _ _ _ _ _ => classify_dpWord _ _ _ _ _ _ _ (fun h => absurd h (by decide)) (fun h => absurd h (by decide))

theorem cmpImm : ∀ cond sb rn rd rot imm8, Statement (.cmpImm cond sb rn rd rot imm8) :=
  fun _ _ _ _ _ _ _ => classify_dpWord _ _ _ _ _ _ _ (fun h => absurd h (by decide)) (fun h => absurd h (by decide))

theorem cmpReg : ∀ cond sb rn rd shift rm, Statement (.cmpReg cond sb rn rd shift rm) :=
  fun _ _ _ _ _ _ _ => classify_dpWord _ _ _ _ _ _ _ (fun h => absurd h (by decide)) (fun h => absurd h (by decide))

theorem movImm : ∀ cond sb rn rd rot imm8, Statement (.movImm cond sb rn rd rot imm8) :=
  fun _ _ _ _ _ _ _ => classify_dpWord _ _ _ _ _ _ _ (fun h => absurd h (by decide)) (fun h => absurd h (by decide))

theorem movReg : ∀ cond sb rn rd shift rm, Statement (.movReg cond sb rn rd shift rm) :=
  fun _ _ _ _ _ _ _ => classify_dpWord _ _ _ _ _ _ _ (fun h => absurd h (by decide)) (fun h => absurd h (by decide))

theorem noopAnd : ∀ cond i sb rn rd op2, Statement (.noopAnd cond i sb rn rd op2) :=
  fun _ _ _ _ _ _ h => classify_dpWord _ _ _ _ _ _ _ (fun h => absurd h (by decide)) fun _ => by simpa [Instr.wf] using h

theorem noopEor : ∀ cond i sb rn rd op2, Statement (.noopEor cond i sb rn rd op2) :=
  fun _ _ _ _ _ _ h => classify_dpWord _ _ _ _ _ _ _ (fun h => absurd h (by decide)) fun _ => by simpa [Instr.wf] using h

theorem noopRsb : ∀ cond i sb rn rd op2, Statement (.noopRsb cond i sb rn rd op2) :=
  fun _ _ _ _ _ _ _ => classify_dpWord _ _ _ _ _ _ _ (fun h => absurd h (by decide)) (fun h => absurd h (by decide))

theorem noopAdc : ∀ cond i sb rn rd op2, Statement (.noopAdc cond i sb rn rd op2) :=
  fun _ _ _ _ _ _ _ => classify_dpWord _ _ _ _ _ _ _ (fun h => absurd h (by decide)) (fun h => absurd h (by decide))

theorem noopSbc : ∀ cond i sb rn rd op2, Statement (.noopSbc cond i sb rn rd op2) :=
  fun _ _ _ _ _ _ _ => classify_dpWord _ _ _ _ _ _ _ (fun h => absurd h (by decide)) (fun h => absurd h (by decide))

theorem noopRsc : ∀ cond i sb rn rd op2, Statement (.noopRsc cond i sb rn rd op2) :=
  fun _ _ _ _ _ _ _ => classify_dpWord _ _ _ _ _ _ _ (fun h => absurd h (by decide)) (fun h => absurd h (by decide))

theorem noopTst : ∀ cond i sb rn rd op2, Statement (.noopTst cond i sb rn rd op2) :=
  fun _ _ _ _ _ _ _ => classify_dpWord _ _ _ _ _ _ _ (fun h => absurd h (by decide)) (fun h => absurd h (by decide))

theorem noopTeq : ∀ cond i sb rn rd op2, Statement (.noopTeq cond i sb rn rd op2) :=
  fun _ _ _ _ _ _ h => classify_dpWord _ _ _ _ _ _ _ (fun _ => by simpa [Instr.wf] using h) (fun h => absurd h (by decide))

theorem noopCmn : ∀ cond i sb rn rd op2, Statement (.noopCmn cond i sb rn rd op2) :=
  fun _ _ _ _ _ _ _ => classify_dpWord _ _ _ _ _ _ _ (fun h => absurd h (by decide)) (fun h => absurd h (by decide))

theorem noopOrr : ∀ cond i sb rn rd op2, Statement (.noopOrr cond i sb rn rd op2) :=
  fun _ _ _ _ _ _ _ => classify_dpWord _ _ _ _ _ _ _ (fun h => absurd h (by decide)) (fun h => absurd h (by decide))

theorem noopBic : ∀ cond i sb rn rd op2, Statement (.noopBic cond i sb rn rd op2) :=
  fun _ _ _ _ _ _ _ => classify_dpWord _ _ _ _ _ _ _ (fun h => absurd h (by decide)) (fun h => absurd h (by decide))

theorem noopMvn : ∀ cond i sb rn rd op2, Statement (.noopMvn cond i sb rn rd op2) :=
  fun _ _ _ _ _ _ _ => classify_dpWord _ _ _ _ _ _ _ (fun h => absurd h (by decide)) (fun h => absurd h (by decide))

theorem ldrImm : ∀ cond p u w rn rd imm12, Statement (.ldrImm cond p u w rn rd imm12) :=
  fun _ _ _ _ _ _ _ _ => classify_transferWord _ _ _ _ _ _ _ _ _ _

theorem ldrReg : ∀ cond p u w rn rd shift rm, Statement (.ldrReg cond p u w rn rd shift rm) :=
  fun _ _ _ _ _ _ _ _ _ => classify_transferWord _ _ _ _ _ _ _ _ _ _

theorem ldrbImm : ∀ cond p u w rn rd imm12, Statement (.ldrbImm cond p u w rn rd imm12) :=
  fun _ _ _ _ _ _ _ _ => classify_transferWord _ _ _ _ _ _ _ _ _ _

theorem ldrbReg : ∀ cond p u w rn rd shift rm, Statement (.ldrbReg cond p u w rn rd shift rm) :=
  fun _ _ _ _ _ _ _ _ _ => classify_transferWord _ _ _ _ _ _ _ _ _ _

theorem strImm : ∀ cond p u w rn rd imm12, Statement (.strImm cond p u w rn rd imm12) :=
  fun _ _ _ _ _ _ _ _ => classify_transferWord _ _ _ _ _ _ _ _ _ _

theorem strReg : ∀ cond p u w rn rd shift rm, Statement (.strReg cond p u w rn rd shift rm) :=
  fun _ _ _ _ _ _ _ _ _ => classify_transferWord _ _ _ _ _ _ _ _ _ _

theorem strbUnsupported : ∀ cond i p u w rn rd offset, Statement (.strbUnsupported cond i p u w rn rd offset) :=
  fun _ _ _ _ _ _ _ _ _ => classify_transferWord _ _ _ _ _ _ _ _ _ _

theorem unknown100 : ∀ cond rest, Statement (.unknown100 cond rest) := by
  intro cond rest _
  have := cond.isLt; have := rest.isLt
  rw [classify_toNat, unknown100Word_toNat, if_neg (by omega), if_neg (by omega), if_neg (by omega), if_neg (by omega), if_neg (by omega)]
  rfl

theorem unknown11 : ∀ cond rest, Statement (.unknown11 cond rest) := by
  intro cond rest _
  have := cond.isLt; have := rest.isLt
  rw [classify_toNat, unknown11Word_toNat, if_neg (by omega), if_neg (by omega), if_neg (by omega), if_neg (by omega), if_neg (by omega)]
  rfl

end Laws.ClassOfWord

end Sys2Proof
end

