-- ==== Sys2Proof/Laws/Step.lean ====
section
/-! SUPPORT. What a step can do, said once (spec/40_execution_cycle.md R79). -/

namespace Sys2Proof.Machine

/-- The state an instruction executes in: the state of the step, after the cache access of the fetch (R79, R81). -/
def State.fetched (s : State) : State :=
  { s with session := s.session.cacheAccess s.session.pc }

@[simp] theorem State.fetched_session (s : State) : s.fetched.session = s.session.cacheAccess s.session.pc := rfl

@[simp] theorem State.fetched_status (s : State) : s.fetched.status = s.status := rfl

@[simp] theorem step_running {s : State} (h : s.status = .running) : step s = runningStep s := by
  rw [step, cycle, h]

@[simp] theorem step_halted {s : State} (h : s.status = .halted) :
    step s = .fault (.sessionHalted (s.session.reg 0#4)) := by
  rw [step, cycle, h]

@[simp] theorem step_failed {s : State} {r : FaultRecord} (h : s.status = .failed r) :
    step s = .fault (.sessionFailed r) := by
  rw [step, cycle, h]

/-- A running session's step reaches its instruction when none of the checks at its top fails (R79, R87). -/
theorem runningStep_fetches {s : State} {w : Word} (h0 : s.session.pc ≠ 0#32)
    (hc : s.session.completed < s.session.cfg.maxInsns) (hf : s.session.fetch = .ok w) :
    runningStep s = commit s (exec (decodeWord w) s.fetched) := by
  simp only [runningStep, if_neg h0, if_neg (Nat.not_le.mpr hc), hf]
  rfl

/-- What a fetched word's execution leaves of a running session: the completed session, or the failed step. -/
theorem commit_exec_cases {s : State} (hr : s.status = .running) (i : Instr) :
    (∃ t, exec i s.fetched = .next { s.fetched with session := t } ∧ Completion i s.fetched.session t ∧
      commit s (exec i s.fetched) = .next { s with session := t }) ∨
    (∃ f, exec i s.fetched = failsWith s.fetched f ∧ f.pc = s.session.pc ∧
      commit s (exec i s.fetched) = failsWith s f) := by
  rcases exec_answers i s.fetched with ⟨t, e, c⟩ | ⟨f, e, hp⟩
  · refine .inl ⟨t, e, c, ?_⟩
    rw [e]
    simp only [commit, State.fetched_status, hr]
  · exact .inr ⟨f, e, hp, by rw [e]; rfl⟩

/-- Everything a step can do when it answers a next state (R79, R84, R86, R88): halt, fail, or complete one
instruction after one cache access. -/
theorem step_cases {s t : State} (h : step s = .next t) :
    s.status = .running ∧
    ((s.session.pc = 0#32 ∧ t = { s with status := .halted }) ∨
     (s.session.pc ≠ 0#32 ∧ ∃ f, f.pc = s.session.pc ∧ t = raise s f) ∨
     (s.session.pc ≠ 0#32 ∧ s.session.completed < s.session.cfg.maxInsns ∧
      ∃ w u, s.session.fetch = .ok w ∧
        exec (decodeWord w) s.fetched = .next { s.fetched with session := u } ∧
        Completion (decodeWord w) s.fetched.session u ∧ t = { s with session := u })) := by
  rcases hs : s.status with _ | _ | r
  · refine ⟨rfl, ?_⟩
    rw [step_running hs] at h
    by_cases h0 : s.session.pc = 0#32
    · simp only [runningStep, if_pos h0] at h
      cases h
      exact .inl ⟨h0, rfl⟩
    by_cases hc : s.session.cfg.maxInsns ≤ s.session.completed
    · simp only [runningStep, if_neg h0, if_pos hc] at h
      cases h
      exact .inr (.inl ⟨h0, _, rfl, rfl⟩)
    rcases hf : s.session.fetch with f | w
    · simp only [runningStep, if_neg h0, if_neg hc, hf] at h
      cases h
      refine .inr (.inl ⟨h0, _, ?_, rfl⟩)
      rcases s.session.memReadWord_cases .fetch s.session.pc with ⟨_, e⟩ | ⟨_, _, e⟩ | ⟨_, _, e⟩ <;>
        rw [Session.fetch, e] at hf <;> cases hf <;> rfl
    · have hc' : s.session.completed < s.session.cfg.maxInsns := Nat.not_le.mp hc
      rw [runningStep_fetches h0 hc' hf] at h
      rcases commit_exec_cases hs (decodeWord w) with ⟨u, e, c, e'⟩ | ⟨f, e, hp, e'⟩
      · rw [e'] at h
        cases h
        exact .inr (.inr ⟨h0, hc', w, u, rfl, e, c, by rw [hs]⟩)
      · rw [e'] at h
        cases h
        exact .inr (.inl ⟨h0, f, hp, rfl⟩)
  · rw [step_halted hs] at h; cases h
  · rw [step_failed hs] at h; cases h

end Sys2Proof.Machine
end

