-- ==== Sys2Proof/Tests/Slice0.lean ====
section
/-! SUPPORT. Tests of the model, each about one step or one word, and a witness for every statement that has
hypotheses. Expected values are the vectors of spec/95_test_vectors.md, named in each test's comment, or a calculation
by hand from the rule named there; none is the model's own answer. -/

namespace Sys2Proof.Tests

open Sys2Proof Sys2Proof.Machine

/-! ### Helpers -/

/-- Flags written as the vectors write them, NZCV. -/
def nzcv (b : BitVec 4) : Flags where
  n := b.getLsbD 3
  z := b.getLsbD 2
  c := b.getLsbD 1
  v := b.getLsbD 0

/-- The session parameters of the vectors (R10), with the given code words and initial flags. -/
def params (words : List Nat) (flags : BitVec 4) : Params :=
  { referenceParams with
    code := words.flatMap fun w => wordBytes (BitVec.ofNat 32 w)
    initFlags := nzcv flags }

/-- A constructed session with the given registers, the first word at 0x1000. -/
def bench (words : List Nat) (regs : List (RegNum × Word)) (flags : BitVec 4) : State :=
  let s := (params words flags).initial
  { s with session := regs.foldl (fun t p => t.setReg p.1 p.2) s.session }

/-- The four counters, in the order of R26. -/
def counts (computation memory taken notTaken : Nat) : Counters :=
  { computation, memory, taken, notTaken }

/-- What a completed step leaves in one register, the program counter, the flags and the counters. -/
def completes (s : State) (r : RegNum) : Option (Word × Word × Flags × Counters) :=
  match step s with
  | .next t =>
    if t.status = .running then some (t.session.reg r, t.session.pc, t.session.flags, t.session.cnt) else none
  | .fault _ => none
  | .refused _ => none

/-- The four bytes at an address after a completed step. -/
def bytesAfter (s : State) (a : Nat) : Option (List Byte) :=
  match step s with
  | .next t =>
    if t.status = .running then some [t.session.mem.read a, t.session.mem.read (a + 1), t.session.mem.read (a + 2),
      t.session.mem.read (a + 3)] else none
  | .fault _ => none
  | .refused _ => none

/-- The fault of a failed step whose state and record are the state before it. -/
def fails (s : State) : Option StepFault :=
  match step s with
  | .next t =>
    match t.status with
    | .failed r => if t.session = s.session ∧ r.state = s.session then some r.fault else none
    | .running => none
    | .halted => none
  | .fault _ => none
  | .refused _ => none

/-! ### Ill-formed terms are refused, one for each check of `Instr.wf` -/

theorem test_wf_refuses_supported_condition : (Instr.branchUnsupported 0xB#4 0#1 0#24).wf = false := by decide

theorem test_wf_refuses_multiply_as_opcode_0 : (Instr.noopAnd 14#4 0#1 0#1 0#4 0#4 0x291#12).wf = false := by decide

theorem test_wf_refuses_multiply_as_opcode_1 : (Instr.noopEor 14#4 0#1 0#1 0#4 0#4 0x291#12).wf = false := by decide

theorem test_wf_refuses_bx_as_opcode_9 : (Instr.noopTeq 14#4 0#1 0#1 15#4 15#4 0xF1E#12).wf = false := by decide

/-- A stream too short for a word is refused by name (R59). -/
theorem test_decode_refuses_short_stream : decode [0#8, 0#8, 0#8] = .error (.truncated 3) := by decide

/-! ### Reset -/

/-- The state after reset is what construction gives for the reference parameters (R31, R151). -/
theorem reset_is_constructed : construct referenceParams = .ok State.reset := by decide

theorem test_reset_memory_canonical : Memory.wf State.reset.session.mem := by decide

/-! ### Decoding: one word for each row of the opcode table, written out from R64 to R71 -/

/-- `bx lr`: cond, bits 27:4 = 0x12FFF1, Rm (R64). -/
theorem test_decode_bx :
    decodeWord 0b1110_000100101111111111110001_1110#32 = .bx 14#4 14#4 := by decide

/-- `beq`: cond, 101, L, imm24 (R65, R71). -/
theorem test_decode_beq :
    decodeWord 0b0000_101_0_100000000000000000000101#32 = .beq 0x800005#24 := by decide

/-- `bne`: cond, 101, L, imm24 (R65, R71). -/
theorem test_decode_bne :
    decodeWord 0b0001_101_0_100000000000000000000101#32 = .bne 0x800005#24 := by decide

/-- `blt`: cond, 101, L, imm24 (R65, R71). -/
theorem test_decode_blt :
    decodeWord 0b1011_101_0_100000000000000000000101#32 = .blt 0x800005#24 := by decide

/-- `bgt`: cond, 101, L, imm24 (R65, R71). -/
theorem test_decode_bgt :
    decodeWord 0b1100_101_0_100000000000000000000101#32 = .bgt 0x800005#24 := by decide

/-- `bleq`: cond, 101, L, imm24 (R65, R71). -/
theorem test_decode_bleq :
    decodeWord 0b0000_101_1_100000000000000000000101#32 = .bleq 0x800005#24 := by decide

/-- `blne`: cond, 101, L, imm24 (R65, R71). -/
theorem test_decode_blne :
    decodeWord 0b0001_101_1_100000000000000000000101#32 = .blne 0x800005#24 := by decide

/-- `bllt`: cond, 101, L, imm24 (R65, R71). -/
theorem test_decode_bllt :
    decodeWord 0b1011_101_1_100000000000000000000101#32 = .bllt 0x800005#24 := by decide

/-- `blgt`: cond, 101, L, imm24 (R65, R71). -/
theorem test_decode_blgt :
    decodeWord 0b1100_101_1_100000000000000000000101#32 = .blgt 0x800005#24 := by decide

/-- `bl` under AL: cond, 101, L, imm24 (R65, R115). -/
theorem test_decode_branchUnsupported :
    decodeWord 0b1110_101_1_000000000000000000000111#32 = .branchUnsupported 14#4 1#1 7#24 := by decide

/-- cond, 000000, A, S, Rd, Ra, Rs, 1001, Rm (R66). -/
theorem test_decode_mul :
    decodeWord 0b1110_000000_10_0011_0100_0101_1001_0110#32 = .mul 14#4 2#2 3#4 4#4 5#4 6#4 := by decide

/-- `sub` immediate: cond, 00, I, opcode, S, Rn, Rd, rotate, imm8 (R67, R68). -/
theorem test_decode_subImm :
    decodeWord 0b1110_00_1_0010_1_0011_0100_0101_11001010#32 = .subImm 14#4 1#1 3#4 4#4 5#4 0xCA#8 := by decide

/-- `sub` register: cond, 00, I, opcode, S, Rn, Rd, shift, Rm (R67, R68). -/
theorem test_decode_subReg :
    decodeWord 0b1110_00_0_0010_1_0011_0100_11001010_0110#32 = .subReg 14#4 1#1 3#4 4#4 0xCA#8 6#4 := by decide

/-- `add` immediate: cond, 00, I, opcode, S, Rn, Rd, rotate, imm8 (R67, R68). -/
theorem test_decode_addImm :
    decodeWord 0b1110_00_1_0100_1_0011_0100_0101_11001010#32 = .addImm 14#4 1#1 3#4 4#4 5#4 0xCA#8 := by decide

/-- `add` register: cond, 00, I, opcode, S, Rn, Rd, shift, Rm (R67, R68). -/
theorem test_decode_addReg :
    decodeWord 0b1110_00_0_0100_1_0011_0100_11001010_0110#32 = .addReg 14#4 1#1 3#4 4#4 0xCA#8 6#4 := by decide

/-- `cmp` immediate: cond, 00, I, opcode, S, Rn, Rd, rotate, imm8 (R67, R68). -/
theorem test_decode_cmpImm :
    decodeWord 0b1110_00_1_1010_1_0011_0100_0101_11001010#32 = .cmpImm 14#4 1#1 3#4 4#4 5#4 0xCA#8 := by decide

/-- `cmp` register: cond, 00, I, opcode, S, Rn, Rd, shift, Rm (R67, R68). -/
theorem test_decode_cmpReg :
    decodeWord 0b1110_00_0_1010_1_0011_0100_11001010_0110#32 = .cmpReg 14#4 1#1 3#4 4#4 0xCA#8 6#4 := by decide

/-- `mov` immediate: cond, 00, I, opcode, S, Rn, Rd, rotate, imm8 (R67, R68). -/
theorem test_decode_movImm :
    decodeWord 0b1110_00_1_1101_1_0011_0100_0101_11001010#32 = .movImm 14#4 1#1 3#4 4#4 5#4 0xCA#8 := by decide

/-- `mov` register: cond, 00, I, opcode, S, Rn, Rd, shift, Rm (R67, R68). -/
theorem test_decode_movReg :
    decodeWord 0b1110_00_0_1101_1_0011_0100_11001010_0110#32 = .movReg 14#4 1#1 3#4 4#4 0xCA#8 6#4 := by decide

/-- Data processing with opcode 0000, a no-op (R67, R101). -/
theorem test_decode_noopAnd :
    decodeWord 0b0101_00_0_0000_0_0011_1111_110010100110#32 = .noopAnd 5#4 0#1 0#1 3#4 15#4 0xCA6#12 := by decide

/-- Data processing with opcode 0001, a no-op (R67, R101). -/
theorem test_decode_noopEor :
    decodeWord 0b0101_00_0_0001_0_0011_1111_110010100110#32 = .noopEor 5#4 0#1 0#1 3#4 15#4 0xCA6#12 := by decide

/-- Data processing with opcode 0011, a no-op (R67, R101). -/
theorem test_decode_noopRsb :
    decodeWord 0b0101_00_0_0011_0_0011_1111_110010100110#32 = .noopRsb 5#4 0#1 0#1 3#4 15#4 0xCA6#12 := by decide

/-- Data processing with opcode 0101, a no-op (R67, R101). -/
theorem test_decode_noopAdc :
    decodeWord 0b0101_00_0_0101_0_0011_1111_110010100110#32 = .noopAdc 5#4 0#1 0#1 3#4 15#4 0xCA6#12 := by decide

/-- Data processing with opcode 0110, a no-op (R67, R101). -/
theorem test_decode_noopSbc :
    decodeWord 0b0101_00_0_0110_0_0011_1111_110010100110#32 = .noopSbc 5#4 0#1 0#1 3#4 15#4 0xCA6#12 := by decide

/-- Data processing with opcode 0111, a no-op (R67, R101). -/
theorem test_decode_noopRsc :
    decodeWord 0b0101_00_0_0111_0_0011_1111_110010100110#32 = .noopRsc 5#4 0#1 0#1 3#4 15#4 0xCA6#12 := by decide

/-- Data processing with opcode 1000, a no-op (R67, R101). -/
theorem test_decode_noopTst :
    decodeWord 0b0101_00_0_1000_0_0011_1111_110010100110#32 = .noopTst 5#4 0#1 0#1 3#4 15#4 0xCA6#12 := by decide

/-- Data processing with opcode 1001, a no-op (R67, R101). -/
theorem test_decode_noopTeq :
    decodeWord 0b0101_00_0_1001_0_0011_1111_110010100110#32 = .noopTeq 5#4 0#1 0#1 3#4 15#4 0xCA6#12 := by decide

/-- Data processing with opcode 1011, a no-op (R67, R101). -/
theorem test_decode_noopCmn :
    decodeWord 0b0101_00_0_1011_0_0011_1111_110010100110#32 = .noopCmn 5#4 0#1 0#1 3#4 15#4 0xCA6#12 := by decide

/-- Data processing with opcode 1100, a no-op (R67, R101). -/
theorem test_decode_noopOrr :
    decodeWord 0b0101_00_0_1100_0_0011_1111_110010100110#32 = .noopOrr 5#4 0#1 0#1 3#4 15#4 0xCA6#12 := by decide

/-- Data processing with opcode 1110, a no-op (R67, R101). -/
theorem test_decode_noopBic :
    decodeWord 0b0101_00_0_1110_0_0011_1111_110010100110#32 = .noopBic 5#4 0#1 0#1 3#4 15#4 0xCA6#12 := by decide

/-- Data processing with opcode 1111, a no-op (R67, R101). -/
theorem test_decode_noopMvn :
    decodeWord 0b0101_00_0_1111_0_0011_1111_110010100110#32 = .noopMvn 5#4 0#1 0#1 3#4 15#4 0xCA6#12 := by decide

/-- `ldr` with an immediate offset: cond, 01, I, P, U, B, W, L, Rn, Rd, imm12 (R69, R70). -/
theorem test_decode_ldrImm :
    decodeWord 0b1110_01_1_1_0_0_1_1_0011_0100_110010100110#32 = .ldrImm 14#4 1#1 0#1 1#1 3#4 4#4 0xCA6#12 := by decide

/-- `ldr` with a register offset, I = 0 (R69, R70). -/
theorem test_decode_ldrReg :
    decodeWord 0b1110_01_0_0_1_0_0_1_0011_0100_11001010_0110#32 = .ldrReg 14#4 0#1 1#1 0#1 3#4 4#4 0xCA#8 6#4 := by decide

/-- `ldrb` with an immediate offset: cond, 01, I, P, U, B, W, L, Rn, Rd, imm12 (R69, R70). -/
theorem test_decode_ldrbImm :
    decodeWord 0b1110_01_1_1_0_1_1_1_0011_0100_110010100110#32 = .ldrbImm 14#4 1#1 0#1 1#1 3#4 4#4 0xCA6#12 := by decide

/-- `ldrb` with a register offset, I = 0 (R69, R70). -/
theorem test_decode_ldrbReg :
    decodeWord 0b1110_01_0_0_1_1_0_1_0011_0100_11001010_0110#32 = .ldrbReg 14#4 0#1 1#1 0#1 3#4 4#4 0xCA#8 6#4 := by decide

/-- `str` with an immediate offset: cond, 01, I, P, U, B, W, L, Rn, Rd, imm12 (R69, R70). -/
theorem test_decode_strImm :
    decodeWord 0b1110_01_1_1_0_0_1_0_0011_0100_110010100110#32 = .strImm 14#4 1#1 0#1 1#1 3#4 4#4 0xCA6#12 := by decide

/-- `str` with a register offset, I = 0 (R69, R70). -/
theorem test_decode_strReg :
    decodeWord 0b1110_01_0_0_1_0_0_0_0011_0100_11001010_0110#32 = .strReg 14#4 0#1 1#1 0#1 3#4 4#4 0xCA#8 6#4 := by decide

/-- The byte store (R69, R70). -/
theorem test_decode_strbUnsupported :
    decodeWord 0b1110_01_1_1_0_1_1_0_0011_0100_110010100110#32 = .strbUnsupported 14#4 1#1 1#1 0#1 1#1 3#4 4#4 0xCA6#12 := by decide

/-- V-DEC-8: bits 27:25 = 100 (R63). -/
theorem test_decode_unknown100 :
    decodeWord 0b1110_100_1001011010100000000000000#32 = .unknown100 14#4 0x12D4000#25 := by decide

/-- V-DEC-10: bits 27:26 = 11 (R63). -/
theorem test_decode_unknown11 :
    decodeWord 0b1110_11_10000001110000111110011010#32 = .unknown11 14#4 0x2070F9A#26 := by decide

/-! ### One step -/

/-- Hand: 0 - 1 modulo 2^32 (R97). -/
theorem test_sub_imm_wraps :
    completes (bench [0xE2400001] [(0#4, 0#32)] 0b0000#4) 0#4 =
      some (0xFFFFFFFF#32, 0x1004#32, nzcv 0b0000#4, counts 1 0 0 0) := by decide

/-- V-DP-2. -/
theorem test_sub_reg_wraps :
    completes (bench [0xE0400001] [(0#4, 0#32), (1#4, 1#32)] 0b0000#4) 0#4 =
      some (0xFFFFFFFF#32, 0x1004#32, nzcv 0b0000#4, counts 1 0 0 0) := by decide

/-- V-DP-4: the rotate field is ignored. -/
theorem test_add_imm_ignores_rotate :
    completes (bench [0xE2800CFF] [(0#4, 0x10#32)] 0b0000#4) 0#4 =
      some (0x10F#32, 0x1004#32, nzcv 0b0000#4, counts 1 0 0 0) := by decide

/-- V-DP-12: `add r0, pc, #8`. -/
theorem test_add_imm_refuses_pc :
    fails (bench [0xE28F0008] [] 0b0000#4) =
      some (.unsupportedAddressingMode 0x1000#32 0xE28F0008#32 .pcOperand) := by decide

/-- V-DP-3: the S bit is ignored, the flags stay. -/
theorem test_add_reg_ignores_s_bit :
    completes (bench [0xE0900001] [(0#4, 0xFFFFFFFF#32), (1#4, 1#32)] 0b0000#4) 0#4 =
      some (0#32, 0x1004#32, nzcv 0b0000#4, counts 1 0 0 0) := by decide

/-- V-CMP-12: all four flags are rewritten. -/
theorem test_cmp_imm_rewrites_flags :
    completes (bench [0xE3500000] [(0#4, 0#32)] 0b1011#4) 0#4 =
      some (0#32, 0x1004#32, nzcv 0b0100#4, counts 1 0 0 0) := by decide

/-- V-CMP-3: MAX - (-1). -/
theorem test_cmp_reg_overflow :
    completes (bench [0xE1500001] [(0#4, 0x7FFFFFFF#32), (1#4, 0xFFFFFFFF#32)] 0b0000#4) 0#4 =
      some (0x7FFFFFFF#32, 0x1004#32, nzcv 0b1011#4, counts 1 0 0 0) := by decide

/-- V-CMP-11: MIN - MAX overflows to 1. -/
theorem test_cmp_reg_overflow_to_one :
    completes (bench [0xE1500001] [(0#4, 0x80000000#32), (1#4, 0x7FFFFFFF#32)] 0b0000#4) 0#4 =
      some (0x80000000#32, 0x1004#32, nzcv 0b0001#4, counts 1 0 0 0) := by decide

/-- V-DP-5. -/
theorem test_mov_imm_ignores_rotate :
    completes (bench [0xE3A00C01] [] 0b0000#4) 0#4 =
      some (1#32, 0x1004#32, nzcv 0b0000#4, counts 1 0 0 0) := by decide

/-- V-DP-7: the register-shift field is ignored. -/
theorem test_mov_reg_ignores_shift :
    completes (bench [0xE1A00311] [(1#4, 3#32), (3#4, 1#32)] 0b0000#4) 0#4 =
      some (3#32, 0x1004#32, nzcv 0b0000#4, counts 1 0 0 0) := by decide

/-- V-DP-11: `mov pc, lr`. -/
theorem test_mov_reg_refuses_pc :
    fails (bench [0xE1A0F00E] [(14#4, 0x2000#32)] 0b0000#4) =
      some (.unsupportedAddressingMode 0x1000#32 0xE1A0F00E#32 .pcOperand) := by decide

/-- V-DP-15 and V-DEC-17, for all twelve opcodes: no read of r15, no write, flags unchanged. -/
theorem test_noops_only_advance :
    ∀ i ∈ noopInstrs 14#4 0#1 0#1 0#4 0#4 0xF0F#12,
      completes (bench [(encode i).toNat] [] 0b1111#4) 0#4 =
        some (0#32, 0x1004#32, nzcv 0b1111#4, counts 1 0 0 0) := by decide

/-- V-MUL-5: the accumulate bit is ignored. -/
theorem test_mul_ignores_accumulate :
    completes (bench [0xE0203291] [(1#4, 3#32), (2#4, 4#32), (3#4, 100#32)] 0b0000#4) 0#4 =
      some (12#32, 0x1004#32, nzcv 0b0000#4, counts 1 0 0 0) := by decide

/-- V-MUL-8: MIN times -1. -/
theorem test_mul_low_word :
    completes (bench [0xE0000291] [(1#4, 0x80000000#32), (2#4, 0xFFFFFFFF#32)] 0b0000#4) 0#4 =
      some (0x80000000#32, 0x1004#32, nzcv 0b0000#4, counts 1 0 0 0) := by decide

/-- V-B-3: offset -2 is the branch itself. -/
theorem test_beq_to_itself :
    completes (bench [0x0AFFFFFE] [] 0b0100#4) 14#4 =
      some (0#32, 0x1000#32, nzcv 0b0100#4, counts 0 0 1 0) := by decide

/-- V-B-2. -/
theorem test_beq_not_taken :
    completes (bench [0x0A000000] [] 0b0000#4) 14#4 =
      some (0#32, 0x1004#32, nzcv 0b0000#4, counts 0 0 0 1) := by decide

/-- V-B-5: the most negative offset wraps. -/
theorem test_bne_wraps :
    completes (bench [0x1A800000] [] 0b0000#4) 14#4 =
      some (0#32, 0xFE001008#32, nzcv 0b0000#4, counts 0 0 1 0) := by decide

/-- V-B-8. -/
theorem test_blt_taken :
    completes (bench [0xBA000001] [] 0b1000#4) 14#4 =
      some (0#32, 0x100C#32, nzcv 0b1000#4, counts 0 0 1 0) := by decide

/-- V-B-9. -/
theorem test_blt_not_taken :
    completes (bench [0xBA000001] [] 0b1001#4) 14#4 =
      some (0#32, 0x1004#32, nzcv 0b1001#4, counts 0 0 0 1) := by decide

/-- V-B-10. -/
theorem test_bgt_taken :
    completes (bench [0xCA000001] [] 0b0000#4) 14#4 =
      some (0#32, 0x100C#32, nzcv 0b0000#4, counts 0 0 1 0) := by decide

/-- V-B-11. -/
theorem test_bgt_not_taken :
    completes (bench [0xCA000001] [] 0b0100#4) 14#4 =
      some (0#32, 0x1004#32, nzcv 0b0100#4, counts 0 0 0 1) := by decide

/-- V-B-6. -/
theorem test_bleq_links :
    completes (bench [0x0B000004] [(14#4, 0x55#32)] 0b0100#4) 14#4 =
      some (0x1004#32, 0x1018#32, nzcv 0b0100#4, counts 0 0 1 0) := by decide

/-- V-B-7. -/
theorem test_bleq_not_taken_keeps_link :
    completes (bench [0x0B000004] [(14#4, 0x55#32)] 0b0000#4) 14#4 =
      some (0x55#32, 0x1004#32, nzcv 0b0000#4, counts 0 0 0 1) := by decide

/-- Hand, as V-B-6 with the condition `ne` (R117, R118). -/
theorem test_blne_links :
    completes (bench [0x1B000004] [(14#4, 0x55#32)] 0b0000#4) 14#4 =
      some (0x1004#32, 0x1018#32, nzcv 0b0000#4, counts 0 0 1 0) := by decide

/-- Hand, as V-B-6 with the condition `lt` (R117, R118). -/
theorem test_bllt_links :
    completes (bench [0xBB000004] [(14#4, 0x55#32)] 0b0001#4) 14#4 =
      some (0x1004#32, 0x1018#32, nzcv 0b0001#4, counts 0 0 1 0) := by decide

/-- Hand, as V-B-6 with the condition `gt` (R117, R118). -/
theorem test_blgt_links :
    completes (bench [0xCB000004] [(14#4, 0x55#32)] 0b1001#4) 14#4 =
      some (0x1004#32, 0x1018#32, nzcv 0b1001#4, counts 0 0 1 0) := by decide

/-- V-B-15: unsupported even though C = 1. -/
theorem test_branch_unsupported_condition :
    fails (bench [0x2A000000] [] 0b0010#4) =
      some (.unsupportedAddressingMode 0x1000#32 0x2A000000#32 .condition) := by decide

/-- V-BX-2: an odd target is kept. -/
theorem test_bx_odd_target :
    completes (bench [0xE12FFF11] [(1#4, 0x1003#32)] 0b0000#4) 1#4 =
      some (0x1003#32, 0x1003#32, nzcv 0b0000#4, counts 0 0 1 0) := by decide

/-- V-BX-3. -/
theorem test_bx_refuses_pc :
    fails (bench [0xE12FFF1F] [] 0b0000#4) =
      some (.unsupportedAddressingMode 0x1000#32 0xE12FFF1F#32 .pcOperand) := by decide

/-- V-SDT-8: W = 1 is ignored; the word of V-SDT-1. -/
theorem test_ldr_imm :
    completes (bench [0xE7B03004, 0xCAFEF00D] [(0#4, 0x1000#32)] 0b0000#4) 3#4 =
      some (0xCAFEF00D#32, 0x1004#32, nzcv 0b0000#4, counts 0 1 0 0) := by decide

/-- V-SDT-10. -/
theorem test_ldr_imm_misaligned :
    fails (bench [0xE7903002, 0] [(0#4, 0x1000#32)] 0b0000#4) =
      some (.misalignedAccess 0x1000#32 0x1002#32 .load) := by decide

/-- V-SDT-17: the address wraps. -/
theorem test_ldr_reg_wraps :
    completes (bench [0xE5913002, 0xCAFEF00D] [(1#4, 0xFFFFF000#32), (2#4, 0x2004#32)] 0b0000#4) 3#4 =
      some (0xCAFEF00D#32, 0x1004#32, nzcv 0b0000#4, counts 0 1 0 0) := by decide

/-- V-SDT-5: byte 1 of a little-endian word. -/
theorem test_ldrb_imm :
    completes (bench [0xE7D03005, 0x11223344] [(0#4, 0x1000#32)] 0b0000#4) 3#4 =
      some (0x33#32, 0x1004#32, nzcv 0b0000#4, counts 0 1 0 0) := by decide

/-- V-SDT-12: the last byte of the image. -/
theorem test_ldrb_imm_last_byte :
    completes (bench [0xE7D03000] [(0#4, 0x1403#32)] 0b0000#4) 3#4 =
      some (0#32, 0x1004#32, nzcv 0b0000#4, counts 0 1 0 0) := by decide

/-- Hand, as V-SDT-5 with a register offset, I = 0 (R124, R127). -/
theorem test_ldrb_reg :
    completes (bench [0xE5D03001, 0x11223344] [(0#4, 0x1000#32), (1#4, 5#32)] 0b0000#4) 3#4 =
      some (0x33#32, 0x1004#32, nzcv 0b0000#4, counts 0 1 0 0) := by decide

/-- V-SDT-4: a word stored little-endian. -/
theorem test_str_imm :
    bytesAfter (bench [0xE7803008, 0, 0] [(0#4, 0x1000#32), (3#4, 0x11223344#32)] 0b0000#4) 0x1008 =
      some [0x44#8, 0x33#8, 0x22#8, 0x11#8] := by decide

/-- Hand, as V-SDT-4 with a register offset, I = 0 (R124, R128). -/
theorem test_str_reg :
    bytesAfter (bench [0xE5803001, 0, 0] [(0#4, 0x1000#32), (1#4, 8#32), (3#4, 0x11223344#32)] 0b0000#4) 0x1008 =
      some [0x44#8, 0x33#8, 0x22#8, 0x11#8] := by decide

/-- V-SDT-9. -/
theorem test_strb_fails :
    fails (bench [0xE7C03004, 0] [(0#4, 0x1000#32), (3#4, 0xAA#32)] 0b0000#4) =
      some (.unsupportedAddressingMode 0x1000#32 0xE7C03004#32 .byteStore) := by decide

/-- V-DEC-8. -/
theorem test_unknown100_fails :
    fails (bench [0xE92D4000] [] 0b0000#4) = some (.unknownInstruction 0x1000#32 0xE92D4000#32) := by decide

/-- V-DEC-10. -/
theorem test_unknown11_fails :
    fails (bench [0xEE070F9A] [] 0b0000#4) = some (.unknownInstruction 0x1000#32 0xEE070F9A#32) := by decide

/-- V-SDT-11: a word load at the image's end. -/
theorem test_load_out_of_bounds :
    fails (bench [0xE7903000] [(0#4, 0x1404#32)] 0b0000#4) =
      some (.outOfBounds 0x1000#32 0x1404#32 .load) := by decide

/-! ### Construction and the cache model -/

/-- V-RST-2: 45 bytes of code. -/
theorem test_construct_rounds_code_size :
    let p : Params := { referenceParams with code := List.replicate 45 1#8 }
    p.initial.session.reg RegNum.sp = 0x1430#32 ∧ p.initial.session.pc = 0x1000#32 := by decide

/-- V-RST-5, V-RST-6 and V-RST-8. -/
theorem test_construct_refuses :
    construct { referenceParams with cacheSize := 12 } = .error .cacheSize ∧
    construct { referenceParams with stackSize := 1022 } = .error .stackSize ∧
    construct { referenceParams with cacheSize := 0 } = .error .cacheSize := by decide

/-- V-IC-2: two addresses of one slot, alternately. -/
theorem test_cache_conflict :
    let d := State.reset.session.icache.accessAll [0x1000#32, 0x1020#32, 0x1000#32, 0x1020#32]
    (d.requests, d.hits, d.misses) = (4, 0, 4) ∧ d.slotAt 0 = { valid := true, tag := 0x81#32 } := by decide

/-- V-IC-5: two slots. -/
theorem test_cache_two_slots :
    let c : ICache := { slots := List.replicate 2 { valid := false, tag := 0#32 }, requests := 0, hits := 0, misses := 0 }
    let d := c.accessAll [0x1000#32, 0x1004#32, 0x1008#32, 0x1004#32]
    (d.requests, d.hits, d.misses) = (4, 1, 3) ∧ (d.slotAt 0).tag = 0x201#32 ∧ (d.slotAt 1).tag = 0x200#32 := by
  decide

/-! ### Witnesses: concrete states and operands that meet the hypotheses of each statement

The statements without hypotheses are not listed: SampleWordsDecode, EncodeOfDecode, MulCountsOrChangesNothing,
CmpFlagsExact, ConditionsAfterCompare, UnsupportedConditionFails, EffectiveAddressWraps, ByteStoreFails,
UnknownWordFails, EveryInstructionCompletesOrFails, ResetMeetsInvariant, CacheDoesNotAffectResult. -/

/-- A bench whose first word is `w`, with four registers the witnesses use and flags NZCV. -/
def sample (w : Nat) (flags : BitVec 4) : State :=
  bench [w, 0xCAFEF00D] [(0#4, 0x1000#32), (1#4, 4#32), (2#4, 0x1003#32), (3#4, 0x11223344#32)] flags

theorem witness_DecodeOfEncode :
    (Instr.noopAnd 14#4 1#1 0#1 0#4 0#4 0x291#12).wf = true ∧ (Instr.noopEor 14#4 0#1 0#1 0#4 0#4 0x281#12).wf = true ∧
    (Instr.noopTeq 14#4 0#1 0#1 15#4 15#4 0xF2E#12).wf = true ∧ (Instr.branchUnsupported 14#4 0#1 0#24).wf = true := by
  decide

/-- Every clause of UnknownClassExact: the first and last words of its ranges. -/
theorem witness_UnknownClassExact :
    classify 0x08000000#32 = .unknown ∧ classify 0xF9FFFFFF#32 = .unknown ∧ classify 0x0C000000#32 = .unknown ∧
    classify 0xFFFFFFFF#32 = .unknown ∧ classify 0x012FFF10#32 = .branchExchange ∧
    classify 0xF03FFF9F#32 = .multiply ∧ (0xFBFFFFFF#32).extractLsb' 25 3 = 0b101#3 ∧
    (0xF7FFFFFF#32).extractLsb' 26 2 = 0b01#2 := by decide

/-- Every clause of BranchAndMultiplyFieldsRead, each condition with each link bit. -/
theorem witness_BranchAndMultiplyFieldsRead :
    (0xF12FFF1F#32).extractLsb' 4 24 = 0x12FFF1#24 ∧
    (0xF03FFF9F#32).extractLsb' 22 6 = 0#6 ∧ (0xF03FFF9F#32).extractLsb' 4 4 = 0b1001#4 ∧
    (∀ p ∈ [(0x0A000000#32, 0b0000#4, false), (0x0BFFFFFF#32, 0b0000#4, true), (0x1A000000#32, 0b0001#4, false),
        (0x1BFFFFFF#32, 0b0001#4, true), (0xBA000000#32, 0b1011#4, false), (0xBBFFFFFF#32, 0b1011#4, true),
        (0xCA000000#32, 0b1100#4, false), (0xCBFFFFFF#32, 0b1100#4, true)],
      p.1.extractLsb' 25 3 = 0b101#3 ∧ p.1.extractLsb' 28 4 = p.2.1 ∧ p.1.extractLsb' 24 1 = BitVec.ofBool p.2.2) ∧
    (0xFBFFFFFF#32).extractLsb' 25 3 = 0b101#3 ∧
    (0xFBFFFFFF#32).extractLsb' 28 4 ∉ [0b0000#4, 0b0001#4, 0b1011#4, 0b1100#4] := by
  refine ⟨by decide, by decide, by decide, fun p hp => ?_, by decide, by decide⟩
  simp only [List.mem_cons, List.not_mem_nil, or_false] at hp
  rcases hp with rfl | rfl | rfl | rfl | rfl | rfl | rfl | rfl <;> decide

/-- Every clause of DataProcessingFieldsRead: the four opcodes in both forms, and a no-op. -/
theorem witness_DataProcessingFieldsRead :
    (∀ p ∈ [(0xE2400001#32, 1#1, 0b0010#4), (0xE2800CFF#32, 1#1, 0b0100#4), (0xE3500000#32, 1#1, 0b1010#4),
        (0xE3A00001#32, 1#1, 0b1101#4), (0xE0400001#32, 0#1, 0b0010#4), (0xE0800001#32, 0#1, 0b0100#4),
        (0xE1500001#32, 0#1, 0b1010#4), (0xE1A0300E#32, 0#1, 0b1101#4)],
      p.1.extractLsb' 26 2 = 0b00#2 ∧ p.1.extractLsb' 25 1 = p.2.1 ∧ p.1.extractLsb' 21 4 = p.2.2) ∧
    classify 0xE1E00001#32 = .dataProcessing ∧
    (0xE1E00001#32).extractLsb' 21 4 ∉ [0b0010#4, 0b0100#4, 0b1010#4, 0b1101#4] := by
  refine ⟨fun p hp => ?_, by decide, by decide⟩
  simp only [List.mem_cons, List.not_mem_nil, or_false] at hp
  rcases hp with rfl | rfl | rfl | rfl | rfl | rfl | rfl | rfl <;> decide

/-- Every clause of TransferFieldsRead: B, L and I. -/
theorem witness_TransferFieldsRead :
    ∀ p ∈ [(0xE7903004#32, 0#1, 1#1, 1#1), (0xE5903001#32, 0#1, 1#1, 0#1), (0xE7D03004#32, 1#1, 1#1, 1#1),
        (0xE5D03001#32, 1#1, 1#1, 0#1), (0xE7803008#32, 0#1, 0#1, 1#1), (0xE5803001#32, 0#1, 0#1, 0#1),
        (0xE7C03004#32, 1#1, 0#1, 1#1)],
      p.1.extractLsb' 26 2 = 0b01#2 ∧ p.1.extractLsb' 22 1 = p.2.1 ∧ p.1.extractLsb' 20 1 = p.2.2.1 ∧
        p.1.extractLsb' 25 1 = p.2.2.2 := by
  intro p hp
  simp only [List.mem_cons, List.not_mem_nil, or_false] at hp
  rcases hp with rfl | rfl | rfl | rfl | rfl | rfl | rfl <;> decide

/-- The register fields of SubWritesDifference and AddWritesSum, at both ends of the range. -/
theorem witness_SubWritesDifference : 0#4 ≠ RegNum.pc ∧ 14#4 ≠ RegNum.pc := by decide

theorem witness_AddWritesSum : 0#4 ≠ RegNum.pc ∧ 14#4 ≠ RegNum.pc := by decide

theorem witness_MovWritesOperand : 0#4 ≠ RegNum.pc ∧ 14#4 ≠ RegNum.pc := by decide

theorem witness_CmpWritesFourFlags : 0#4 ≠ RegNum.pc ∧ 14#4 ≠ RegNum.pc := by decide

theorem witness_MulWritesLowProduct : 0#4 ≠ RegNum.pc ∧ 14#4 ≠ RegNum.pc := by decide

theorem witness_MulServesSignedProduct : 0#4 ≠ RegNum.pc ∧ 14#4 ≠ RegNum.pc := by decide

theorem witness_BxJumpsToRegister : 0#4 ≠ RegNum.pc ∧ 14#4 ≠ RegNum.pc := by decide

theorem witness_NoopsOnlyAdvance :
    Instr.noopAnd 14#4 0#1 0#1 15#4 15#4 0xF0F#12 ∈ noopInstrs 14#4 0#1 0#1 15#4 15#4 0xF0F#12 ∧
    Instr.noopMvn 0#4 1#1 1#1 0#4 0#4 0#12 ∈ noopInstrs 0#4 1#1 1#1 0#4 0#4 0#12 := by decide

/-- Each register field of PcOperandRefusedInComputation can be the one that is 15, the others not. -/
theorem witness_PcOperandRefusedInComputation :
    (15#4 = RegNum.pc ∨ 0#4 = RegNum.pc) ∧ (0#4 = RegNum.pc ∨ 15#4 = RegNum.pc) ∧
    (14#4 = RegNum.pc ∨ 0#4 = RegNum.pc ∨ 15#4 = RegNum.pc) := by decide

theorem witness_PcOperandRefusedInTransfer :
    (15#4 = RegNum.pc ∨ 0#4 = RegNum.pc) ∧ (0#4 = RegNum.pc ∨ 15#4 = RegNum.pc) ∧
    (14#4 = RegNum.pc ∨ 0#4 = RegNum.pc ∨ 15#4 = RegNum.pc) := by decide

/-- A `cmp` that changes a flag, in both forms. -/
theorem witness_OnlyCmpWritesFlags :
    (∃ t, exec (.cmpImm 14#4 0#1 0#4 0#4 0#4 0#8) (sample 0 0b1111#4) = .next t ∧
      t.session.flags ≠ (sample 0 0b1111#4).session.flags) ∧
    (∃ t, exec (.cmpReg 14#4 0#1 0#4 0#4 0#8 1#4) (sample 0 0b1111#4) = .next t ∧
      t.session.flags ≠ (sample 0 0b1111#4).session.flags) :=
  ⟨⟨_, rfl, by decide⟩, ⟨_, rfl, by decide⟩⟩

/-- Each condition can hold. -/
theorem witness_TakenBranchJumps :
    CondMeaning (nzcv 0b0100#4) .eq ∧ CondMeaning (nzcv 0b0000#4) .ne ∧ CondMeaning (nzcv 0b1000#4) .lt ∧
    CondMeaning (nzcv 0b1001#4) .gt := by
  simp only [CondMeaning]; decide

/-- Each condition can fail; `gt` by Z or by N against V. -/
theorem witness_UntakenBranchAdvances :
    ¬ CondMeaning (nzcv 0b0000#4) .eq ∧ ¬ CondMeaning (nzcv 0b0100#4) .ne ∧ ¬ CondMeaning (nzcv 0b1001#4) .lt ∧
    ¬ CondMeaning (nzcv 0b0100#4) .gt ∧ ¬ CondMeaning (nzcv 0b1000#4) .gt := by
  simp only [CondMeaning]; decide

/-- LinkWrittenWithJump: a linked taken branch, an untaken one, and an unlinked one. -/
theorem witness_LinkWrittenWithJump :
    (CondMeaning (nzcv 0b0100#4) .eq ∧ true = true) ∧ (¬ CondMeaning (nzcv 0b0000#4) .eq ∨ true = false) ∧
    (¬ CondMeaning (nzcv 0b0100#4) .eq ∨ false = false) := by
  simp only [CondMeaning]; decide

/-- A `bx` from an aligned address to an odd one. -/
theorem witness_OnlyBxMisalignsPc :
    ∃ t, exec (.bx 14#4 2#4) (sample 0 0b0000#4) = .next t ∧ (sample 0 0b0000#4).session.pc.toNat % 4 = 0 ∧
      t.session.pc.toNat % 4 ≠ 0 :=
  ⟨_, rfl, by decide, by decide⟩

/-- The first and the last word of the image, in both forms (the image of `sample` ends at 0x1408). -/
theorem witness_LdrLoadsWord :
    let s := bench [0, 0] [(0#4, 0x1000#32), (1#4, 0x404#32), (2#4, 0#32)] 0b0000#4
    ∀ off ∈ [Offset.imm 0#12, .imm 0x404#12, .reg 1#4, .reg 2#4],
      let ea := effectiveAddress s.session 0#4 off
      0#4 ≠ RegNum.pc ∧ 14#4 ≠ RegNum.pc ∧ ea.toNat % 4 = 0 ∧ s.session.cfg.InImage ea 4 := by decide

/-- The first and the last byte of the image, in both forms. -/
theorem witness_LdrbLoadsByte :
    let s := bench [0, 0] [(0#4, 0x1000#32), (1#4, 0x407#32), (2#4, 0#32)] 0b0000#4
    ∀ off ∈ [Offset.imm 0#12, .imm 0x407#12, .reg 1#4, .reg 2#4],
      let ea := effectiveAddress s.session 0#4 off
      0#4 ≠ RegNum.pc ∧ 14#4 ≠ RegNum.pc ∧ s.session.cfg.InImage ea 1 := by decide

/-- The first and the last word of the image, in both forms, with canonical memory. -/
theorem witness_StrStoresWord :
    let s := bench [1, 2] [(0#4, 0x1000#32), (1#4, 0x404#32), (2#4, 0#32)] 0b0000#4
    Memory.wf s.session.mem ∧ ∀ off ∈ [Offset.imm 0#12, .imm 0x404#12, .reg 1#4, .reg 2#4],
      let ea := effectiveAddress s.session 0#4 off
      0#4 ≠ RegNum.pc ∧ 14#4 ≠ RegNum.pc ∧ ea.toNat % 4 = 0 ∧ s.session.cfg.InImage ea 4 := by decide

/-- Misaligned addresses in the image and past its end, in both forms. -/
theorem witness_MisalignedTransferFails :
    let s := bench [0, 0] [(0#4, 0x1000#32), (1#4, 1#32), (2#4, 0x407#32)] 0b0000#4
    ∀ off ∈ [Offset.imm 1#12, .imm 0x407#12, .reg 1#4, .reg 2#4],
      0#4 ≠ RegNum.pc ∧ 14#4 ≠ RegNum.pc ∧ (effectiveAddress s.session 0#4 off).toNat % 4 ≠ 0 := by decide

/-- Words and bytes just below the image and just past its end, in both forms. -/
theorem witness_OutOfBoundsTransferFails :
    let s := bench [0, 0] [(0#4, 0x1000#32), (1#4, 0x408#32), (2#4, 0xFFFFFFFC#32), (3#4, 0xFFFFFFFF#32),
      (4#4, 0xFFC#32)] 0b0000#4
    (∀ p ∈ [(0#4, Offset.imm 0x408#12), (0#4, .reg 1#4), (0#4, .reg 2#4), (4#4, .imm 0#12)],
      let a := effectiveAddress s.session p.1 p.2
      p.1 ≠ RegNum.pc ∧ a.toNat % 4 = 0 ∧
        (a.toNat < s.session.cfg.imageBase ∨ s.session.cfg.imageEnd < a.toNat + 4)) ∧
    (∀ p ∈ [(0#4, Offset.imm 0x408#12), (0#4, .reg 1#4), (0#4, .reg 3#4), (4#4, .imm 3#12)],
      let a := effectiveAddress s.session p.1 p.2
      p.1 ≠ RegNum.pc ∧ (a.toNat < s.session.cfg.imageBase ∨ s.session.cfg.imageEnd < a.toNat + 1)) := by decide

theorem witness_TransfersCountOrChangeNothing :
    Instr.strReg 14#4 1#1 1#1 0#1 0#4 3#4 0#8 1#4 ∈
      [Instr.ldrImm 14#4 1#1 1#1 0#1 0#4 3#4 4#12, .ldrReg 14#4 1#1 1#1 0#1 0#4 3#4 0#8 1#4,
        .ldrbImm 14#4 1#1 1#1 0#1 0#4 3#4 4#12, .ldrbReg 14#4 1#1 1#1 0#1 0#4 3#4 0#8 1#4,
        .strImm 14#4 1#1 1#1 0#1 0#4 3#4 4#12, .strReg 14#4 1#1 1#1 0#1 0#4 3#4 0#8 1#4] := by decide

/-- A completed store in each form, and the byte numbers 0 and 3. -/
theorem witness_LoadAfterStore :
    let s := sample 0 0b0000#4
    Memory.wf s.session.mem ∧ s.status = .running ∧ 0 < 4 ∧ 3 < 4 ∧
    (∃ t, exec (.strImm 14#4 1#1 1#1 0#1 0#4 3#4 4#12) s = .next { s with session := t }) ∧
    ∃ t, exec (.strReg 14#4 1#1 1#1 0#1 0#4 3#4 0#8 1#4) s = .next { s with session := t } :=
  ⟨by decide, rfl, by decide, by decide, ⟨_, rfl⟩, _, rfl⟩

/-- A completed store to 0x1004 in each form, and a later session that is about to fetch there. -/
theorem witness_StoredWordIsFetched :
    let s := sample 0 0b0000#4
    Memory.wf s.session.mem ∧ s.status = .running ∧
    (∃ t, exec (.strImm 14#4 1#1 1#1 0#1 0#4 3#4 4#12) s = .next { s with session := t } ∧
      ∃ later : Session, later.mem = t.mem ∧ later.cfg = t.cfg ∧
        later.pc = effectiveAddress s.session 0#4 (.imm 4#12)) ∧
    ∃ t, exec (.strReg 14#4 1#1 1#1 0#1 0#4 3#4 0#8 1#4) s = .next { s with session := t } ∧
      ∃ later : Session, later.mem = t.mem ∧ later.cfg = t.cfg ∧
        later.pc = effectiveAddress s.session 0#4 (.reg 1#4) :=
  ⟨by decide, rfl, ⟨_, rfl, _, rfl, rfl, by decide⟩, _, rfl, _, rfl, rfl, by decide⟩

/-- A store that changes a byte. -/
theorem witness_OnlyStrWritesMemory :
    ∃ t, exec (.strImm 14#4 1#1 1#1 0#1 0#4 3#4 4#12) (sample 0 0b0000#4) = .next t ∧
      t.session.mem.read 0x1004 ≠ (sample 0 0b0000#4).session.mem.read 0x1004 :=
  ⟨_, rfl, by decide⟩

theorem witness_RegistersWrittenOnlyAsNamed :
    ∃ t, exec (.bleq 4#24) (sample 0 0b0100#4) = .next t ∧ 0#4 ∉ RegNum.pc :: writtenRegs (.bleq 4#24) :=
  ⟨_, rfl, by decide⟩

/-- Two words of `mov` that differ in the condition field, and a state on which one completes; and two that fail with a
raw word (a byte store) or without one (a load out of bounds). -/
theorem witness_ConditionFieldIgnoredOutsideBranches :
    let s := sample 0 0b0000#4
    ((0xE3A00001#32).extractLsb' 0 28 = (0x03A00001#32).extractLsb' 0 28 ∧ classify 0xE3A00001#32 ≠ .branch ∧
      s.status = .running ∧ ∃ t, exec (decodeWord 0xE3A00001#32) s = .next { s with session := t }) ∧
    ((0xE7C03004#32).extractLsb' 0 28 = (0x07C03004#32).extractLsb' 0 28 ∧ classify 0xE7C03004#32 ≠ .branch ∧
      exec (decodeWord 0xE7C03004#32) s =
        failsWith s (.unsupportedAddressingMode 0x1000#32 0xE7C03004#32 .byteStore)) ∧
    ((0xE7913000#32).extractLsb' 0 28 = (0xF7913000#32).extractLsb' 0 28 ∧ classify 0xE7913000#32 ≠ .branch ∧
      exec (decodeWord 0xE7913000#32) s = failsWith s (.outOfBounds 0x1000#32 4#32 .load)) :=
  ⟨⟨by decide, by decide, rfl, _, rfl⟩, ⟨by decide, by decide, rfl⟩, ⟨by decide, by decide, rfl⟩⟩

/-- A running state whose word completes (`mov r0, #1`), and one whose word fails. -/
theorem witness_StepRunsDecodedInstruction :
    (let s := sample 0xE3A00001 0b0000#4
     let a := s.session.pc.toNat
     let m := s.session.mem
     s.status = .running ∧ s.session.pc ≠ 0#32 ∧ s.session.completed < s.session.cfg.maxInsns ∧ a % 4 = 0 ∧
     s.session.cfg.InImage s.session.pc 4 ∧
     decode [m.read a, m.read (a + 1), m.read (a + 2), m.read (a + 3)] =
       .ok (.movImm 14#4 0#1 0#4 0#4 0#4 1#8, []) ∧
     (fails s = none ∧ (completes s 0#4).isSome = true)) ∧
    (let s := sample 0xEF000000 0b0000#4
     let a := s.session.pc.toNat
     let m := s.session.mem
     s.status = .running ∧
     decode [m.read a, m.read (a + 1), m.read (a + 2), m.read (a + 3)] = .ok (.unknown11 14#4 0x3000000#26, []) ∧
     (fails s).isSome = true) :=
  ⟨⟨rfl, by decide, by decide, by decide, by decide, by decide, by decide, by decide⟩, rfl, by decide, by decide⟩

/-- A running session at the sentinel; its step halts it. -/
theorem witness_SentinelHalts :
    let s : State := bench [0] [(15#4, 0#32)] 0b0000#4
    s.status = .running ∧ s.session.pc = 0#32 ∧ ∃ t, step s = .next t ∧ t.status = .halted :=
  ⟨rfl, by decide, _, rfl, rfl⟩

/-- Each check of StepChecksInOrder: at the ceiling, misaligned inside the image, outside it on both sides. -/
theorem witness_StepChecksInOrder :
    (let s : State := bench [0] [(15#4, 0x1002#32)] 0b0000#4
     let u : State := { s with session := { s.session with cfg := { s.session.cfg with maxInsns := 0 } } }
     u.status = .running ∧ u.session.pc ≠ 0#32 ∧ u.session.completed ≥ u.session.cfg.maxInsns) ∧
    (let s : State := bench [0] [(15#4, 0x1002#32)] 0b0000#4
     s.status = .running ∧ s.session.completed < s.session.cfg.maxInsns ∧ s.session.pc.toNat % 4 ≠ 0) ∧
    (∀ a ∈ [0xFFC#32, 0x1404#32],
      let s : State := bench [0] [(15#4, a)] 0b0000#4
      s.status = .running ∧ s.session.pc ≠ 0#32 ∧ s.session.completed < s.session.cfg.maxInsns ∧
        s.session.pc.toNat % 4 = 0 ∧ ¬ s.session.cfg.InImage s.session.pc 4) := by
  refine ⟨⟨rfl, by decide, by decide⟩, ⟨rfl, by decide, by decide⟩, fun a ha => ?_⟩
  simp only [List.mem_cons, List.not_mem_nil, or_false] at ha
  rcases ha with rfl | rfl <;> exact ⟨rfl, by decide, by decide, by decide, by decide⟩

/-- Each clause of EndedSessionTakesNoStep. -/
theorem witness_EndedSessionTakesNoStep :
    (∃ s, construct referenceParams = .ok s) ∧
    (let s : State := bench [0] [(15#4, 0#32)] 0b0000#4
     s.status = .running ∧ s.session.pc = 0#32 ∧ ∃ t, step s = .next t ∧ t.status = .halted) ∧
    (∃ t r, step (sample 0xEF000000 0b0000#4) = .next t ∧ t.status = .failed r) ∧
    ({ State.reset with status := .halted } : State).status ≠ .running :=
  ⟨⟨_, reset_is_constructed⟩, ⟨rfl, by decide, _, rfl, rfl⟩, ⟨_, _, rfl, rfl⟩, by decide⟩

theorem witness_FailedStepCommitsNothing :
    ∃ t r, step (sample 0xEF000000 0b0000#4) = .next t ∧ t.status = .failed r :=
  ⟨_, _, rfl, rfl⟩

theorem witness_CompletedStepCountsOnce :
    ∃ t, step (sample 0xE3A00001 0b0000#4) = .next t ∧ t.status = .running :=
  ⟨_, rfl, rfl⟩

theorem reset_meets_config : State.reset.session.cfg.Valid := by
  simp only [SessionConfig.Valid]; decide

/-- The reset state meets the invariant, and it takes a step (a no-op: nothing is loaded, log 9). -/
theorem witness_StepKeepsInvariant : State.reset.Inv ∧ ∃ t, step State.reset = .next t :=
  ⟨{ config := reset_meets_config
     memory := by decide
     image := by decide
     cacheSize := by decide
     outcomes := by decide
     fetches := by decide
     ceiling := by decide
     halted := by decide
     failed := by rintro r ⟨⟩ }, ⟨_, rfl⟩⟩

theorem witness_ConstructionGivesResetValues : ∃ s, construct (params [0xE12FFF1E] 0b0100#4) = .ok s :=
  ⟨_, rfl⟩

theorem witness_ConstructionMeetsInvariant : ∃ s, construct (params [0xE12FFF1E] 0b0100#4) = .ok s :=
  ⟨_, rfl⟩

/-- Each refusal of ConstructionChecksParameters, and the largest image that is accepted. -/
theorem witness_ConstructionChecksParameters :
    construct { referenceParams with cacheSize := 0 } = .error .cacheSize ∧
    construct { referenceParams with stackSize := 1022 } = .error .stackSize ∧
    construct { referenceParams with imageBase := 0 } = .error .imageBase ∧
    construct { referenceParams with imageBase := 2 } = .error .imageBase ∧
    construct { referenceParams with imageBase := 0xFFFFFC04 } = .error .imageEnd ∧
    (∃ s, construct { referenceParams with imageBase := 0xFFFFFC00 } = .ok s) :=
  ⟨by decide, by decide, by decide, by decide, by decide, _, rfl⟩

theorem witness_EveryRunEnds :
    State.reset.session.completed ≤ State.reset.session.cfg.maxInsns ∧
    ∀ r, State.reset.status = .failed r → r.state = State.reset.session :=
  ⟨by decide, by rintro r ⟨⟩⟩

theorem witness_CacheDoesNotAffectStep : ∃ t, exec (.bleq 4#24) (sample 0 0b0100#4) = .next t :=
  ⟨_, rfl⟩

/-- CacheLogCountsShifts: one slot, a size that is no power of two, and a shift below the logarithm. -/
theorem witness_CacheLogCountsShifts : 1 ≤ 1 ∧ 1 ≤ 6 ∧ cacheLog2 6 = 2 ∧ 1 < cacheLog2 6 := by decide

/-- CacheAccessFillsSlot: an address whose slot is valid and holds its tag (after one access), one whose slot is invalid,
one whose slot holds another tag, and a slot beside the one accessed. -/
theorem witness_CacheAccessFillsSlot :
    let c := State.reset.session.icache
    let d := c.access 0x1000#32
    1 ≤ c.size ∧ 1 ≤ d.size ∧ 1 ≠ slotIndex d.size 0x1000#32 ∧
    (∃ slot, d.slots[slotIndex d.size 0x1000#32]? = some slot ∧ slot.valid = true ∧
      slot.tag = slotTag d.size 0x1000#32) ∧
    (∃ slot, c.slots[slotIndex c.size 0x1000#32]? = some slot ∧ slot.valid = false) ∧
    (∃ slot, d.slots[slotIndex d.size 0x1020#32]? = some slot ∧ slot.tag ≠ slotTag d.size 0x1020#32) :=
  ⟨by decide, by decide, by decide, ⟨_, rfl, rfl, by decide⟩, ⟨_, rfl, rfl⟩, _, rfl, by decide⟩

theorem witness_RepeatedFetchHits :
    let c := State.reset.session.icache
    1 ≤ c.size ∧ ∀ b ∈ [0x1004#32, 0x101C#32], slotIndex c.size b ≠ slotIndex c.size 0x1000#32 := by
  refine ⟨by decide, fun b hb => ?_⟩
  simp only [List.mem_cons, List.not_mem_nil, or_false] at hb
  rcases hb with rfl | rfl <;> decide

theorem witness_AlternatingFetchesMiss :
    let c := State.reset.session.icache
    1 ≤ c.size ∧ slotIndex c.size 0x1000#32 = slotIndex c.size 0x1020#32 ∧
      slotTag c.size 0x1000#32 ≠ slotTag c.size 0x1020#32 := by decide

/-- TagTellsAlignedAddresses: two addresses of one slot with equal tags, and two with different tags. -/
theorem witness_TagTellsAlignedAddresses :
    (0x1000#32).toNat % 4 = 0 ∧ (0xFFFFFFE0#32).toNat % 4 = 0 ∧
    slotIndex (2 ^ 3) 0x1000#32 = slotIndex (2 ^ 3) 0xFFFFFFE0#32 ∧
    slotTag (2 ^ 3) 0x1000#32 = slotTag (2 ^ 3) 0x1000#32 ∧
    slotTag (2 ^ 3) 0x1000#32 ≠ slotTag (2 ^ 3) 0xFFFFFFE0#32 := by decide

end Sys2Proof.Tests
end

section
namespace Sys2Proof.Machine

/-- A bump of one counter is growth by one of that counter and of no other (R26). -/
theorem countersGrew_of_bump {a b : Session} {k : Counter} (h : b.cnt = a.cnt.bump k) :
    CountersGrew 1 0 0 0 a b ∨ CountersGrew 0 1 0 0 a b ∨ CountersGrew 0 0 1 0 a b ∨ CountersGrew 0 0 0 1 a b := by
  unfold CountersGrew
  rw [h]
  cases k with
  | computation => exact .inl ⟨rfl, rfl, rfl, rfl⟩
  | memory => exact .inr (.inl ⟨rfl, rfl, rfl, rfl⟩)
  | taken => exact .inr (.inr (.inl ⟨rfl, rfl, rfl, rfl⟩))
  | notTaken => exact .inr (.inr (.inr ⟨rfl, rfl, rfl, rfl⟩))

/-- A step that leaves the session running has completed the instruction it fetched, on the session after the one
cache access of the fetch: halting and failing both end the session (R79, R84, R88). -/
theorem step_running_completion {s t : State} (h : step s = .next t) (ht : t.status = .running) :
    ∃ i, Completion i s.fetched.session t.session := by
  obtain ⟨_, ⟨_, rfl⟩ | ⟨_, f, _, rfl⟩ | ⟨_, _, w, u, _, _, c, rfl⟩⟩ := step_cases h
  · cases ht
  · cases ht
  · exact ⟨decodeWord w, c⟩

/-- Settles O47: the instruction a completed step runs bumps one counter and keeps the cache model and the parameters,
so the only cache access is the one of the fetch. -/
theorem completedStepCountsOnce : Obligations.CompletedStepCountsOnce := by
  intro s t h ht
  obtain ⟨i, c⟩ := step_running_completion h ht
  obtain ⟨k, hk⟩ := c.counted
  exact ⟨c.icache, c.cfg, countersGrew_of_bump hk⟩

end Sys2Proof.Machine
end

section
/-! SUPPORT. The state of the session (spec/10_state.md): the invariant through construction and every step. -/

namespace Sys2Proof.Machine

/-! ### The invariant through a step -/

/-- The invariant of a session that goes on with another status: only the two clauses about the status are new. -/
theorem State.Inv.withStatus {s : State} (h : s.Inv) {st : Status} (halted : st = .halted → s.session.pc = 0#32)
    (failed : ∀ r, st = .failed r → r.state = s.session) : State.Inv { s with status := st } :=
  { h with halted := halted, failed := failed }

/-- The memory of a completed instruction is canonical if it was before: it is kept, or takes one more word. -/
theorem Completion.memory_wf {i : Instr} {a t : Session} (c : Completion i a t) (h : Memory.wf a.mem) :
    Memory.wf t.mem := by
  rcases c.memory with e | ⟨ea, v, _, _, e⟩
  · rw [e]; exact h
  · rw [e]; exact Memory.writeWord_wf h _ _

/-- A completed instruction lists no byte outside the image: a stored word lies inside it (R43). -/
theorem Completion.memory_inImage {i : Instr} {a t : Session} (c : Completion i a t)
    (h : ∀ b ∈ a.mem, a.cfg.imageBase ≤ b.1 ∧ b.1 < a.cfg.imageEnd) :
    ∀ b ∈ t.mem, a.cfg.imageBase ≤ b.1 ∧ b.1 < a.cfg.imageEnd := by
  intro b hb
  rcases c.memory with e | ⟨ea, v, _, ⟨hlo, hhi⟩, e⟩
  · exact h b (e ▸ hb)
  · rcases Memory.mem_writeWord (e ▸ hb) with hb | hb
    · exact h b hb
    · omega

/-- A running session below its ceiling keeps the invariant when the instruction it fetched completes: the cache
access of the fetch counts one request, the instruction one completion. -/
theorem State.Inv.complete {s : State} (h : s.Inv) (hr : s.status = .running)
    (hc : s.session.completed < s.session.cfg.maxInsns) {i : Instr} {t : Session}
    (c : Completion i s.fetched.session t) : State.Inv { s with session := t } := by
  have hcfg : t.cfg = s.session.cfg := c.cfg
  have hcache : t.icache = s.session.icache.access s.session.pc := c.icache
  have hdone : t.completed = s.session.completed + 1 := c.completed
  have houtcomes := s.session.icache.access_outcomes s.session.pc
  exact {
    config := by simpa only [hcfg] using h.config
    memory := c.memory_wf h.memory
    image := by rw [hcfg]; exact c.memory_inImage h.image
    cacheSize := by simpa only [hcache, ICache.access_size] using h.cacheSize
    outcomes := by simp only [hcache, ICache.access_requests, h.outcomes, houtcomes]
    fetches := by simp only [hcache, ICache.access_requests, h.fetches, hdone]
    ceiling := by simp only [hcfg, hdone]; exact hc
    halted := fun e => by rw [hr] at e; cases e
    failed := fun r e => by rw [hr] at e; cases e }

/-- Settles O48: a step halts at the sentinel, fails with the session in its record, or completes one instruction
after one cache access. -/
theorem stepKeepsInvariant : Obligations.StepKeepsInvariant := by
  intro s t hs h
  obtain ⟨hr, ⟨h0, rfl⟩ | ⟨_, f, _, rfl⟩ | ⟨_, hc, w, u, _, _, c, rfl⟩⟩ := step_cases h
  · exact hs.withStatus (fun _ => h0) nofun
  · exact hs.withStatus nofun (by rintro r ⟨⟩; rfl)
  · exact hs.complete hr hc c

/-! ### What an instruction leaves unchanged -/

/-- An instruction's answer leaves the flags as they were. -/
def KeepsFlags (s : State) (o : Host.Outcome State Fault Refusal) : Prop :=
  ∀ t, o = .next t → t.session.flags = s.session.flags

theorem keepsFlags_ok {s : State} {u : Session} (h : u.flags = s.session.flags) : KeepsFlags s (finish s (.ok u)) := by
  rintro t ⟨⟩
  exact h

/-- A fault changes nothing but the status (R134). -/
theorem keepsFlags_error (s : State) (f : StepFault) : KeepsFlags s (finish s (.error f)) := by
  rintro t ⟨⟩
  rfl

/-- The `r15` check in front of a handler changes no flag. -/
theorem keepsFlags_guardPc {s : State} {w : Word} {named : List RegNum} {go : Except StepFault Session}
    (h : KeepsFlags s (finish s go)) : KeepsFlags s (finish s (s.session.guardPc w named go)) := by
  rcases s.session.guardPc_cases w named go with ⟨_, e⟩ | ⟨_, e⟩ <;> rw [e]
  · exact keepsFlags_error s _
  · exact h

theorem keepsFlags_branch (c : Cond) (link : Bool) (imm24 : BitVec 24) (s : State) :
    KeepsFlags s (branch c link imm24 s) := by
  by_cases h : condHolds s.session.flags c = true
  · rw [branch_taken h]; exact keepsFlags_ok (by simp)
  · rw [branch_not_taken h]; exact keepsFlags_ok (by simp)

/-- A load writes its destination and no flag, whatever memory answers. -/
theorem keepsFlags_load (s : State) (rd : RegNum) (read : Except StepFault Word) :
    KeepsFlags s (finish s (s.session.completeLoad rd read)) := by
  cases read with
  | error f => exact keepsFlags_error s _
  | ok v => exact keepsFlags_ok rfl

theorem keepsFlags_storeWord (w : Word) (rn rd : RegNum) (off : Offset) (s : State) :
    KeepsFlags s (storeWord w rn rd off s) := by
  refine keepsFlags_guardPc ?_
  rcases s.session.memWriteWord_cases (effectiveAddress s.session rn off) (s.session.reg rd) with
    ⟨_, e⟩ | ⟨_, _, e⟩ | ⟨_, _, e⟩ <;> rw [e]
  · exact keepsFlags_error s _
  · exact keepsFlags_error s _
  · exact keepsFlags_ok rfl

/-- Every instruction keeps the flags, or is one of the two forms of `cmp` (R104). -/
theorem exec_keepsFlags_or_cmp (i : Instr) (s : State) :
    KeepsFlags s (exec i s) ∨
    (∃ cond sb rn rd rot imm8, i = .cmpImm cond sb rn rd rot imm8) ∨
    (∃ cond sb rn rd shift rm, i = .cmpReg cond sb rn rd shift rm) := by
  cases i
  case cmpImm => exact .inr (.inl ⟨_, _, _, _, _, _, rfl⟩)
  case cmpReg => exact .inr (.inr ⟨_, _, _, _, _, _, rfl⟩)
  all_goals left
  case beq | bne | blt | bgt | bleq | blne | bllt | blgt => exact keepsFlags_branch _ _ _ s
  case bx | mul | subImm | subReg | addImm | addReg | movImm | movReg =>
    exact keepsFlags_guardPc (keepsFlags_ok rfl)
  case ldrImm | ldrReg | ldrbImm | ldrbReg => exact keepsFlags_guardPc (keepsFlags_load s _ _)
  case strImm | strReg => exact keepsFlags_storeWord _ _ _ _ s
  case branchUnsupported | strbUnsupported | unknown100 | unknown11 => exact keepsFlags_error s _
  all_goals exact keepsFlags_ok rfl

/-- Settles O19: an instruction after which a flag differs has not kept the flags, so it is a `cmp`. -/
theorem onlyCmpWritesFlags : Obligations.OnlyCmpWritesFlags := by
  intro i s t h hne
  exact (exec_keepsFlags_or_cmp i s).resolve_left fun kept => hne (kept t h)

/-- No instruction names more than one destination beside the program counter. -/
theorem writtenRegs_length_le (i : Instr) : (writtenRegs i).length ≤ 1 := by
  unfold writtenRegs
  split <;> simp

/-- Settles O40: the register frame of a completion; a fault writes no register. -/
theorem registersWrittenOnlyAsNamed : Obligations.RegistersWrittenOnlyAsNamed := by
  intro i s t h
  refine ⟨?_, writtenRegs_length_le i⟩
  rcases exec_answers i s with ⟨u, e, c⟩ | ⟨f, e, _⟩ <;> rw [e] at h <;> cases h
  · exact c.regs
  · exact fun _ _ => rfl

/-! ### Construction -/

/-- Construction accepts a session exactly when its four checks pass, and gives it the initial state (R151, R152). -/
theorem construct_ok_iff (p : Params) (s : State) :
    construct p = .ok s ↔
      (PowerOfTwo p.cacheSize ∧ p.stackSize % 4 = 0 ∧ (p.imageBase % 4 = 0 ∧ p.imageBase ≠ 0) ∧
        p.config.imageEnd ≤ 2 ^ 32) ∧ s = p.initial := by
  unfold construct
  constructor
  · intro h
    split_ifs at h with h1 h2 h3 h4
    obtain ⟨hmod, hne⟩ := not_or.mp h3
    exact ⟨⟨h1, not_not.mp h2, ⟨not_not.mp hmod, hne⟩, Nat.not_lt.mp h4⟩, (Except.ok.inj h).symm⟩
  · rintro ⟨⟨h1, h2, ⟨hmod, hne⟩, h4⟩, rfl⟩
    rw [if_neg (not_not.mpr h1), if_neg (not_not.mpr h2), if_neg (not_or.mpr ⟨not_not.mpr hmod, hne⟩),
      if_neg (Nat.not_lt.mpr h4)]

/-- The initial memory lies in the code region of the image (R37). -/
theorem Params.initial_inImage (p : Params) :
    ∀ c ∈ p.initial.session.mem, p.config.imageBase ≤ c.1 ∧ c.1 < p.config.imageEnd := by
  intro c hc
  obtain ⟨hlo, hhi, _⟩ := Memory.ofBytes_listed hc
  simp only [Params.config, SessionConfig.imageEnd, SessionConfig.imageSize, codeSizeOf]
  omega

/-- Settles O52: construction checks the parameters the invariant needs, and memory holds CODE alone. -/
theorem constructionMeetsInvariant : Obligations.ConstructionMeetsInvariant := by
  intro p s h
  obtain ⟨⟨hcache, hstack, ⟨hbase, hne⟩, hend⟩, rfl⟩ := (construct_ok_iff p s).mp h
  have hcode : codeSizeOf p.code % 4 = 0 := Nat.mul_mod_right 4 _
  exact {
    config := ⟨hbase, hne, hcode, hstack, hend⟩
    memory := Memory.ofBytes_wf _ _
    image := p.initial_inImage
    cacheSize := by simpa only [Params.initial, ICache.size, List.length_replicate] using hcache
    outcomes := rfl
    fetches := rfl
    ceiling := Nat.zero_le _
    halted := nofun
    failed := nofun }

/-- Settles O49: the reset state is the one construction gives for the reference parameters. -/
theorem resetMeetsInvariant : Obligations.ResetMeetsInvariant :=
  constructionMeetsInvariant referenceParams State.reset (by decide)

/-- Settles O50: each piece of the initial state, read back. -/
theorem constructionGivesResetValues : Obligations.ConstructionGivesResetValues := by
  intro p s h
  obtain ⟨_, rfl⟩ := (construct_ok_iff p s).mp h
  refine ⟨?args, ?initRegs, ?sp, rfl, rfl, rfl, rfl, ?mem, ?slots, ?invalid, rfl, rfl, rfl, rfl, rfl⟩
  case args => intro r; fin_cases r <;> rfl
  case initRegs => intro r; fin_cases r <;> rfl
  case sp =>
    show BitVec.ofNat 32 (p.imageBase + (codeSizeOf p.code + p.stackSize)) = _
    rw [← Nat.add_assoc]; rfl
  case mem => exact fun i => Memory.read_ofBytes p.imageBase i p.code
  case slots => exact List.length_replicate
  case invalid =>
    intro slot hslot
    rw [List.eq_of_mem_replicate hslot]

/-! ### The status -/

/-- The first check of a step: the sentinel halts the session (R84). -/
theorem runningStep_sentinel {s : State} (h0 : s.session.pc = 0#32) :
    runningStep s = .next { s with status := .halted } :=
  if_pos h0

/-- The second check of a step: the ceiling (R86). -/
theorem runningStep_ceiling {s : State} (h0 : s.session.pc ≠ 0#32)
    (hc : s.session.cfg.maxInsns ≤ s.session.completed) :
    runningStep s = failsWith s (.nonTerminating s.session.pc) :=
  (if_neg h0).trans (if_pos hc)

/-- The third check of a step: the fetch (R80). -/
theorem runningStep_fetchFault {s : State} (h0 : s.session.pc ≠ 0#32)
    (hc : s.session.completed < s.session.cfg.maxInsns) {f : StepFault} (hf : s.session.fetch = .error f) :
    runningStep s = failsWith s f := by
  simp only [runningStep, if_neg h0, if_neg (Nat.not_le.mpr hc), hf, next_raise]

/-- A running session always has a next state: it halts, fails, or completes an instruction (R79). -/
theorem step_next_of_running {s : State} (h : s.status = .running) : ∃ t, step s = .next t := by
  rw [step_running h]
  by_cases h0 : s.session.pc = 0#32
  · exact ⟨_, runningStep_sentinel h0⟩
  by_cases hc : s.session.cfg.maxInsns ≤ s.session.completed
  · exact ⟨_, runningStep_ceiling h0 hc⟩
  rcases hf : s.session.fetch with f | w
  · exact ⟨_, runningStep_fetchFault h0 (Nat.not_le.mp hc) hf⟩
  · rw [runningStep_fetches h0 (Nat.not_le.mp hc) hf]
    rcases commit_exec_cases h (decodeWord w) with ⟨_, _, _, e⟩ | ⟨_, _, _, e⟩ <;> exact ⟨_, e⟩

/-- Settles O45: the one way in and no way out of each status, from what a step can do. -/
theorem endedSessionTakesNoStep : Obligations.EndedSessionTakesNoStep := by
  refine ⟨?constructed, ?halts, ?haltedAt, ?failedBy, ?ended, fun s => step_next_of_running⟩
  case constructed =>
    intro p s h
    obtain ⟨_, rfl⟩ := (construct_ok_iff p s).mp h
    rfl
  case halts => exact fun s hr h0 => ⟨_, (step_running hr).trans (runningStep_sentinel h0), rfl⟩
  case haltedAt =>
    intro s t h ht
    obtain ⟨hr, ⟨h0, _⟩ | ⟨_, f, _, rfl⟩ | ⟨_, _, w, u, _, _, _, rfl⟩⟩ := step_cases h
    · exact h0
    · cases ht
    · cases hr.symm.trans ht
  case failedBy =>
    intro s t r h ht
    obtain ⟨hr, ⟨_, rfl⟩ | ⟨_, f, _, rfl⟩ | ⟨_, _, w, u, _, _, _, rfl⟩⟩ := step_cases h
    · cases ht
    · cases ht; exact h
    · cases hr.symm.trans ht
  case ended => exact fun s hr t h => hr (step_cases h).1

end Sys2Proof.Machine
end

section
/-! SUPPORT. The cache model is seen by nothing but the statistics (R30): an instruction, a step and a run do the same
with any other cache model in its place. -/

namespace Sys2Proof.Machine

/-! ### An instruction -/

/-- The session with another cache model in its place. -/
def Session.withICache (t : Session) (c : ICache) : Session :=
  { t with icache := c }

/-- The state with another cache model in its session's place. -/
def State.withICache (s : State) (c : ICache) : State :=
  { s with session := s.session.withICache c }

/-- Two answers, from `s` and from `s` with the cache model `c`, differ in that cache model alone: both complete,
with the same session beside it, or both take the same fault. -/
def CacheBlind (s : State) (c : ICache) (o o' : Host.Outcome State Fault Refusal) : Prop :=
  (∃ u, o = .next { s with session := u } ∧ o' = .next { s with session := u.withICache c }) ∨
  (∃ f, o = failsWith s f ∧ o' = failsWith (s.withICache c) f)

theorem cacheBlind_ok (s : State) (c : ICache) (u : Session) :
    CacheBlind s c (finish s (.ok u)) (finish (s.withICache c) (.ok (u.withICache c))) :=
  .inl ⟨u, rfl, rfl⟩

theorem cacheBlind_error (s : State) (c : ICache) (f : StepFault) :
    CacheBlind s c (finish s (.error f)) (finish (s.withICache c) (.error f)) :=
  .inr ⟨f, rfl, rfl⟩

/-- The `r15` check does not see the cache model. -/
theorem cacheBlind_guardPc {s : State} {c : ICache} {w : Word} {named : List RegNum} {go go' : Except StepFault Session}
    (h : CacheBlind s c (finish s go) (finish (s.withICache c) go')) :
    CacheBlind s c (finish s (s.session.guardPc w named go))
      (finish (s.withICache c) ((s.session.withICache c).guardPc w named go')) := by
  by_cases hn : RegNum.pc ∈ named
  · rw [Session.guardPc_pos hn, Session.guardPc_pos hn]; exact cacheBlind_error s c _
  · rw [Session.guardPc_neg hn, Session.guardPc_neg hn]; exact h

theorem cacheBlind_branch (s : State) (c : ICache) (k : Cond) (link : Bool) (imm24 : BitVec 24) :
    CacheBlind s c (branch k link imm24 s) (branch k link imm24 (s.withICache c)) := by
  by_cases h : condHolds s.session.flags k = true
  · rw [branch_taken h, branch_taken (s := s.withICache c) h]
    cases link <;> exact cacheBlind_ok s c _
  · rw [branch_not_taken h, branch_not_taken (s := s.withICache c) h]
    exact cacheBlind_ok s c _

/-- A load's last steps do not see the cache model, whatever memory answers. -/
theorem cacheBlind_load (s : State) (c : ICache) (rd : RegNum) (read : Except StepFault Word) :
    CacheBlind s c (finish s (s.session.completeLoad rd read))
      (finish (s.withICache c) ((s.session.withICache c).completeLoad rd read)) := by
  cases read with
  | error f => exact cacheBlind_error s c f
  | ok v => exact cacheBlind_ok s c _

/-- A word write does not see the cache model. -/
theorem Session.memWriteWord_withICache (t : Session) (c : ICache) (a v : Word) :
    (t.withICache c).memWriteWord a v = (t.memWriteWord a v).map (·.withICache c) := by
  rcases t.memWriteWord_cases a v with ⟨h4, e⟩ | ⟨h4, hi, e⟩ | ⟨h4, hi, e⟩ <;> rw [e]
  · exact if_pos h4
  · exact (if_neg (not_not.mpr h4)).trans (if_neg hi)
  · exact Session.memWriteWord_ok (t := t.withICache c) h4 hi v

/-- A store's last steps do not see the cache model, whatever memory answers. -/
theorem cacheBlind_store (s : State) (c : ICache) (ia : Word) (write : Except StepFault Session) :
    CacheBlind s c (finish s (completeStore ia write))
      (finish (s.withICache c) (completeStore ia (write.map (·.withICache c)))) := by
  cases write with
  | error f => exact cacheBlind_error s c f
  | ok t => exact cacheBlind_ok s c _

theorem cacheBlind_storeWord (s : State) (c : ICache) (w : Word) (rn rd : RegNum) (off : Offset) :
    CacheBlind s c (storeWord w rn rd off s) (storeWord w rn rd off (s.withICache c)) := by
  have h := cacheBlind_store s c s.session.pc
    (s.session.memWriteWord (effectiveAddress s.session rn off) (s.session.reg rd))
  rw [← Session.memWriteWord_withICache] at h
  exact cacheBlind_guardPc h

/-- An instruction does not see the cache model (R30). -/
theorem exec_cacheBlind (i : Instr) (s : State) (c : ICache) :
    CacheBlind s c (exec i s) (exec i (s.withICache c)) := by
  cases i
  case beq | bne | blt | bgt | bleq | blne | bllt | blgt => exact cacheBlind_branch s c _ _ _
  case bx | mul => exact cacheBlind_guardPc (cacheBlind_ok s c _)
  case subReg | addReg | movReg | cmpReg => exact cacheBlind_guardPc (cacheBlind_ok s c _)
  case subImm | addImm | cmpImm | movImm => exact cacheBlind_guardPc (cacheBlind_ok s c _)
  case ldrImm | ldrReg | ldrbImm | ldrbReg => exact cacheBlind_guardPc (cacheBlind_load s c _ _)
  case strImm | strReg => exact cacheBlind_storeWord s c _ _ _ _
  case branchUnsupported | strbUnsupported | unknown100 | unknown11 => exact cacheBlind_error s c _
  all_goals exact cacheBlind_ok s c _

/-! ### A step -/

/-- The state with every cache model in it blanked out: what a program can observe of it (R30). -/
def State.withoutCache (s : State) : State where
  session := s.session.withoutCache
  status := s.status.withoutCache

/-- Answers that differ in the cache model alone are kept or undone alike, and look the same to a program (R88). -/
theorem CacheBlind.outcome_commit {s : State} (hr : s.status = .running) {c : ICache}
    {o o' : Host.Outcome State Fault Refusal} (h : CacheBlind s.fetched (c.access s.session.pc) o o') :
    outcomeWithoutCache (commit (s.withICache c) o') = outcomeWithoutCache (commit s o) := by
  rcases h with ⟨u, rfl, rfl⟩ | ⟨f, rfl, rfl⟩
  · simp only [commit, State.fetched_status, hr]
    rfl
  · rfl

/-- A step does not see the cache model: no check at its top reads it, nor does the instruction (R30, R79). -/
theorem step_withICache (s : State) (c : ICache) :
    outcomeWithoutCache (step (s.withICache c)) = outcomeWithoutCache (step s) := by
  rcases hs : s.status with _ | _ | r
  · rw [step_running hs, step_running (s := s.withICache c) hs]
    by_cases h0 : s.session.pc = 0#32
    · rw [runningStep_sentinel h0, runningStep_sentinel (s := s.withICache c) h0]; rfl
    by_cases hc : s.session.cfg.maxInsns ≤ s.session.completed
    · rw [runningStep_ceiling h0 hc, runningStep_ceiling (s := s.withICache c) h0 hc]; rfl
    have hc : s.session.completed < s.session.cfg.maxInsns := Nat.not_le.mp hc
    rcases hf : s.session.fetch with f | w
    · rw [runningStep_fetchFault h0 hc hf, runningStep_fetchFault (s := s.withICache c) h0 hc hf]; rfl
    · rw [runningStep_fetches h0 hc hf, runningStep_fetches (s := s.withICache c) h0 hc hf]
      exact (exec_cacheBlind (decodeWord w) s.fetched (c.access s.session.pc)).outcome_commit hs
  · rw [step_halted hs, step_halted (s := s.withICache c) hs]; rfl
  · rw [step_failed hs, step_failed (s := s.withICache c) hs]

/-- Settles O54: a step sees the cache model at no check and in no instruction, and an instruction that completes or
fails keeps it. -/
theorem cacheDoesNotAffectStep : Obligations.CacheDoesNotAffectStep := by
  refine ⟨step_withICache, fun i s t h => ?_⟩
  rcases exec_answers i s with ⟨u, e, c⟩ | ⟨f, e, _⟩ <;> rw [e] at h <;> cases h
  · exact c.icache
  · rfl

/-! ### A run -/

/-- How the run goes on after a step, with `n` steps left. -/
def endingAfter (n : Nat) : Host.Outcome State Fault Refusal → Option Ending
  | .next t => (runFor n t).map RunResult.ending
  | .fault _ => none
  | .refused _ => none

/-- A halted session's run has ended, with register 0, whatever steps are left (R78). -/
theorem ending_runFor_halted {s : State} (h : s.status = .halted) (n : Nat) :
    (runFor n s).map RunResult.ending = some (.halted (s.session.reg 0#4)) := by
  cases n <;> simp only [runFor, h] <;> rfl

/-- A failed session's run has ended, with its fault, whatever steps are left (R78). -/
theorem ending_runFor_failed {s : State} {r : FaultRecord} (h : s.status = .failed r) (n : Nat) :
    (runFor n s).map RunResult.ending = some (.failed r.fault) := by
  cases n <;> simp only [runFor, h] <;> rfl

/-- A running session with no step left has no ending. -/
theorem ending_runFor_zero {s : State} (h : s.status = .running) : (runFor 0 s).map RunResult.ending = none := by
  simp only [runFor, h, Option.map_none]

/-- The ending of a running session's run is the ending after its next step (R78). -/
theorem ending_runFor_succ {s : State} (h : s.status = .running) (n : Nat) :
    (runFor (n + 1) s).map RunResult.ending = endingAfter n (step s) := by
  rw [runFor, h]
  cases step s <;> rfl

/-- If the remaining runs end as their blinded ones do, the ending cannot tell a step's answer from the blinded
one. -/
theorem endingAfter_withoutCache {n : Nat}
    (ih : ∀ s : State, (runFor n s.withoutCache).map RunResult.ending = (runFor n s).map RunResult.ending)
    (o : Host.Outcome State Fault Refusal) : endingAfter n (outcomeWithoutCache o) = endingAfter n o := by
  rcases o with t | (_ | _) | _
  · exact ih t
  all_goals rfl

/-- A step of the blinded running session looks to a program like a step of the session itself. -/
theorem step_of_withoutCache {s : State} (h : s.status = .running) :
    outcomeWithoutCache (step s.withoutCache) = outcomeWithoutCache (step s) := by
  have e : s.withoutCache = s.withICache { slots := [], requests := 0, hits := 0, misses := 0 } := by
    rw [State.withoutCache, State.withICache, h]
    rfl
  rw [e, step_withICache]

/-- Blinding does not wake or end a session. -/
theorem State.withoutCache_running {s : State} (h : s.status = .running) : s.withoutCache.status = .running := by
  rw [State.withoutCache, h]; rfl

/-- The run of an ended session ends as the blinded one's does: register 0 and the fault are not the cache model's. -/
theorem ending_runFor_withoutCache_of_ended {s : State} (h : s.status ≠ .running) (n : Nat) :
    (runFor n s.withoutCache).map RunResult.ending = (runFor n s).map RunResult.ending := by
  have hblind : s.withoutCache.status = s.status.withoutCache := rfl
  rcases hs : s.status with _ | _ | r <;> rw [hs] at hblind
  · exact absurd hs h
  · rw [ending_runFor_halted hs, ending_runFor_halted hblind]; rfl
  · rw [ending_runFor_failed hs, ending_runFor_failed hblind]

/-- A run ends as it does with every cache model blanked out: by induction on the steps left, one step at a time. -/
theorem ending_runFor_withoutCache (n : Nat) (s : State) :
    (runFor n s.withoutCache).map RunResult.ending = (runFor n s).map RunResult.ending := by
  induction n generalizing s with
  | zero =>
    by_cases hs : s.status = .running
    · rw [ending_runFor_zero hs, ending_runFor_zero (State.withoutCache_running hs)]
    · exact ending_runFor_withoutCache_of_ended hs 0
  | succ n ih =>
    by_cases hs : s.status = .running
    · calc (runFor (n + 1) s.withoutCache).map RunResult.ending
          = endingAfter n (step s.withoutCache) := ending_runFor_succ (State.withoutCache_running hs) n
        _ = endingAfter n (outcomeWithoutCache (step s.withoutCache)) := (endingAfter_withoutCache ih _).symm
        _ = endingAfter n (outcomeWithoutCache (step s)) := by rw [step_of_withoutCache hs]
        _ = endingAfter n (step s) := endingAfter_withoutCache ih _
        _ = (runFor (n + 1) s).map RunResult.ending := (ending_runFor_succ hs n).symm
    · exact ending_runFor_withoutCache_of_ended hs (n + 1)

/-- Settles O55: both runs end as the run without a cache model does. -/
theorem cacheDoesNotAffectResult : Obligations.CacheDoesNotAffectResult := by
  intro n s c
  exact (ending_runFor_withoutCache n (s.withICache c)).symm.trans (ending_runFor_withoutCache n s)

end Sys2Proof.Machine
end

section
/-! SUPPORT. Loads and stores (spec/44_load_store.md R123 to R132): what each does once its register fields are not 15,
for both offset forms at once. -/

namespace Sys2Proof.Machine

/-! ### The register fields and the checks of the address -/

/-- The register fields of a transfer with an immediate offset (R90, R91). -/
theorem pc_notMem_transferImm {rn rd : RegNum} (hn : rn ≠ RegNum.pc) (hd : rd ≠ RegNum.pc) (imm12 : BitVec 12) :
    RegNum.pc ∉ rn :: rd :: (Offset.imm imm12).regs := by
  simp [Offset.regs, hn.symm, hd.symm]

/-- The register fields of a transfer with a register offset (R90, R91). -/
theorem pc_notMem_transferReg {rn rd rm : RegNum} (hn : rn ≠ RegNum.pc) (hd : rd ≠ RegNum.pc) (hm : rm ≠ RegNum.pc) :
    RegNum.pc ∉ rn :: rd :: (Offset.reg rm).regs := by
  simp [Offset.regs, hn.symm, hd.symm, hm.symm]

/-- An access is refused exactly when it begins below the image or ends above it (R43). -/
theorem SessionConfig.not_inImage_iff (c : SessionConfig) (a : Word) (n : Nat) :
    ¬ c.InImage a n ↔ a.toNat < c.imageBase ∨ c.imageEnd < a.toNat + n := by
  rw [not_and_or, Nat.not_le, Nat.not_le]

theorem Session.memReadWord_misaligned {t : Session} {a : Word} (h4 : a.toNat % 4 ≠ 0) (k : Access) :
    t.memReadWord k a = .error (.misalignedAccess t.pc a k) := if_pos h4

theorem Session.memReadWord_outside {t : Session} {a : Word} (h4 : a.toNat % 4 = 0) (hi : ¬ t.cfg.InImage a 4)
    (k : Access) : t.memReadWord k a = .error (.outOfBounds t.pc a k) :=
  (if_neg (not_not.mpr h4)).trans (if_neg hi)

theorem Session.memReadByte_outside {t : Session} {a : Word} (hi : ¬ t.cfg.InImage a 1) (k : Access) :
    t.memReadByte k a = .error (.outOfBounds t.pc a k) := if_neg hi

theorem Session.memWriteWord_misaligned {t : Session} {a : Word} (h4 : a.toNat % 4 ≠ 0) (v : Word) :
    t.memWriteWord a v = .error (.misalignedAccess t.pc a .store) := if_pos h4

theorem Session.memWriteWord_outside {t : Session} {a : Word} (h4 : a.toNat % 4 = 0) (hi : ¬ t.cfg.InImage a 4)
    (v : Word) : t.memWriteWord a v = .error (.outOfBounds t.pc a .store) :=
  (if_neg (not_not.mpr h4)).trans (if_neg hi)

/-- A word as a number, byte by byte, the first byte least significant (R38). -/
theorem Memory.readWord_toNat (m : Memory) (a : Nat) :
    (m.readWord a).toNat =
      (m.read a).toNat + 2 ^ 8 * (m.read (a + 1)).toNat + 2 ^ 16 * (m.read (a + 2)).toNat +
        2 ^ 24 * (m.read (a + 3)).toNat := by
  rw [Memory.readWord, wordOfBytes_toNat]
  omega

/-- Byte `k` of a word just written is bits `8k+7 : 8k` of it (R38, R41). -/
theorem Memory.read_writeWord_byte {m : Memory} (hm : Memory.wf m) (a : Nat) (v : Word) {k : Nat} (hk : k < 4) :
    (m.writeWord a v).read (a + k) = v.extractLsb' (8 * k) 8 := by
  rw [Memory.read_writeWord hm, if_pos ⟨by omega, by omega⟩, Nat.add_sub_cancel_left]
  rfl

/-! ### Transfers that complete -/

/-- A load's last steps write the destination, count one memory instruction, and change nothing else (R132). -/
theorem loads_complete (rd : RegNum) (t : Session) (v : Word) :
    Loads rd t ((t.setReg rd v).complete .memory (t.pc + 4#32)) := by
  refine ⟨fun r hr => ?_, by simp, rfl, fun _ => rfl, ⟨rfl, rfl⟩, ⟨rfl, rfl, rfl, rfl⟩⟩
  obtain ⟨hpc, hrd⟩ : r ≠ RegNum.pc ∧ r ≠ rd := by simpa using hr
  simp [hpc, hrd]

/-- What a completed load of the value `v` answers: the frame of R132, and the value in the destination. -/
theorem finish_completeLoad_ok {rd : RegNum} (hd : rd ≠ RegNum.pc) (s : State) (v : Word) :
    ∃ t, finish s (s.session.completeLoad rd (.ok v)) = .next { s with session := t } ∧ Loads rd s.session t ∧
      t.reg rd = v :=
  ⟨_, rfl, loads_complete rd s.session v, by simp [hd]⟩

/-- A word load at a legal address completes with the word that stands there (R126). -/
theorem loadWord_ok {rn rd : RegNum} {off : Offset} {s : State} (h : RegNum.pc ∉ rn :: rd :: off.regs)
    (h4 : (effectiveAddress s.session rn off).toNat % 4 = 0)
    (hi : s.session.cfg.InImage (effectiveAddress s.session rn off) 4) (w : Word) :
    ∃ t, loadWord w rn rd off s = .next { s with session := t } ∧ Loads rd s.session t ∧
      t.reg rd = s.session.mem.readWord (effectiveAddress s.session rn off).toNat := by
  rw [loadWord_eq h, Session.memReadWord_ok h4 hi]
  exact finish_completeLoad_ok (by rintro rfl; simp at h) s _

/-- A byte load at a legal address completes with the byte that stands there, zero-extended (R127). -/
theorem loadByte_ok {rn rd : RegNum} {off : Offset} {s : State} (h : RegNum.pc ∉ rn :: rd :: off.regs)
    (hi : s.session.cfg.InImage (effectiveAddress s.session rn off) 1) (w : Word) :
    ∃ t, loadByte w rn rd off s = .next { s with session := t } ∧ Loads rd s.session t ∧
      t.reg rd = (s.session.mem.read (effectiveAddress s.session rn off).toNat).setWidth 32 := by
  rw [loadByte_eq h, Session.memReadByte_ok hi]
  exact finish_completeLoad_ok (by rintro rfl; simp at h) s _

/-- A store's last steps leave the word's four bytes in memory and change nothing else (R128, R132). -/
theorem stores_complete {t : Session} (hm : Memory.wf t.mem) (ea : Nat) (v : Word) :
    Stores ea v t ({ t with mem := t.mem.writeWord ea v }.complete .memory (t.pc + 4#32)) := by
  have byte {k : Nat} (hk : k < 4) := Memory.read_writeWord_byte hm ea v hk
  refine ⟨fun r hr => ?_, by simp, rfl, byte (k := 0) (by decide), byte (k := 1) (by decide), byte (k := 2) (by decide),
    byte (k := 3) (by decide), fun _ => Memory.read_writeWord_outside t.mem v, ⟨rfl, rfl⟩, ⟨rfl, rfl, rfl, rfl⟩⟩
  rw [List.mem_singleton] at hr
  simp [hr]

/-- A store at a legal address completes with the register's word in memory (R128). -/
theorem storeWord_ok {rn rd : RegNum} {off : Offset} {s : State} (h : RegNum.pc ∉ rn :: rd :: off.regs)
    (hm : Memory.wf s.session.mem) (h4 : (effectiveAddress s.session rn off).toNat % 4 = 0)
    (hi : s.session.cfg.InImage (effectiveAddress s.session rn off) 4) (w : Word) :
    ∃ t, storeWord w rn rd off s = .next { s with session := t } ∧
      Stores (effectiveAddress s.session rn off).toNat (s.session.reg rd) s.session t := by
  rw [storeWord_eq h, Session.memWriteWord_ok h4 hi]
  exact ⟨_, rfl, stores_complete hm _ _⟩

/-- Settles O27: a word load at a legal address, in both offset forms, and its word as a number. -/
theorem ldrLoadsWord : Obligations.LdrLoadsWord := by
  refine ⟨fun cond p u w rn rd imm12 s hn hd h4 hi => ?_, fun cond p u w rn rd shift rm s hn hd hm h4 hi => ?_⟩
  · obtain ⟨t, e, hl, hv⟩ := loadWord_ok (pc_notMem_transferImm hn hd imm12) h4 hi _
    exact ⟨t, e, hl, hv ▸ Memory.readWord_toNat _ _⟩
  · obtain ⟨t, e, hl, hv⟩ := loadWord_ok (pc_notMem_transferReg hn hd hm) h4 hi _
    exact ⟨t, e, hl, hv ▸ Memory.readWord_toNat _ _⟩

/-- Settles O28: a byte load at a legal address, in both offset forms; zero extension keeps the number. -/
theorem ldrbLoadsByte : Obligations.LdrbLoadsByte := by
  have extended (b : Byte) : (b.setWidth 32).toNat = b.toNat := BitVec.toNat_setWidth_of_le (by decide)
  refine ⟨fun cond p u w rn rd imm12 s hn hd hi => ?_, fun cond p u w rn rd shift rm s hn hd hm hi => ?_⟩
  · obtain ⟨t, e, hl, hv⟩ := loadByte_ok (pc_notMem_transferImm hn hd imm12) hi _
    exact ⟨t, e, hl, hv ▸ extended _⟩
  · obtain ⟨t, e, hl, hv⟩ := loadByte_ok (pc_notMem_transferReg hn hd hm) hi _
    exact ⟨t, e, hl, hv ▸ extended _⟩

/-- Settles O29: a store at a legal address, in both offset forms. -/
theorem strStoresWord : Obligations.StrStoresWord :=
  ⟨fun _ _ _ _ _ _ imm12 _ hn hd hm h4 hi => storeWord_ok (pc_notMem_transferImm hn hd imm12) hm h4 hi _,
   fun _ _ _ _ _ _ _ _ _ hn hd hr hm h4 hi => storeWord_ok (pc_notMem_transferReg hn hd hr) hm h4 hi _⟩

/-! ### Transfers that fail -/

/-- A load fails with the fault its memory access raises (R125). -/
theorem loadWord_error {rn rd : RegNum} {off : Offset} {s : State} {f : StepFault}
    (h : RegNum.pc ∉ rn :: rd :: off.regs)
    (e : s.session.memReadWord .load (effectiveAddress s.session rn off) = .error f) (w : Word) :
    loadWord w rn rd off s = failsWith s f := by
  rw [loadWord_eq h, e]
  rfl

theorem loadByte_error {rn rd : RegNum} {off : Offset} {s : State} {f : StepFault}
    (h : RegNum.pc ∉ rn :: rd :: off.regs)
    (e : s.session.memReadByte .load (effectiveAddress s.session rn off) = .error f) (w : Word) :
    loadByte w rn rd off s = failsWith s f := by
  rw [loadByte_eq h, e]
  rfl

/-- A store fails with the fault its memory access raises (R125). -/
theorem storeWord_error {rn rd : RegNum} {off : Offset} {s : State} {f : StepFault}
    (h : RegNum.pc ∉ rn :: rd :: off.regs)
    (e : s.session.memWriteWord (effectiveAddress s.session rn off) (s.session.reg rd) = .error f) (w : Word) :
    storeWord w rn rd off s = failsWith s f := by
  rw [storeWord_eq h, e]
  rfl

/-- Both word transfers check the alignment first, in the image or not (R42, R125). -/
theorem wordTransfers_misaligned {rn rd : RegNum} {off : Offset} {s : State} (h : RegNum.pc ∉ rn :: rd :: off.regs)
    (h4 : (effectiveAddress s.session rn off).toNat % 4 ≠ 0) (wl ws : Word) :
    loadWord wl rn rd off s =
      failsWith s (.misalignedAccess s.session.pc (effectiveAddress s.session rn off) .load) ∧
    storeWord ws rn rd off s =
      failsWith s (.misalignedAccess s.session.pc (effectiveAddress s.session rn off) .store) :=
  ⟨loadWord_error h (Session.memReadWord_misaligned h4 _) _, storeWord_error h (Session.memWriteWord_misaligned h4 _) _⟩

/-- Both word transfers check the bounds of an aligned address next (R43, R125). -/
theorem wordTransfers_outside {rn rd : RegNum} {off : Offset} {s : State} (h : RegNum.pc ∉ rn :: rd :: off.regs)
    (h4 : (effectiveAddress s.session rn off).toNat % 4 = 0)
    (hi : ¬ s.session.cfg.InImage (effectiveAddress s.session rn off) 4) (wl ws : Word) :
    loadWord wl rn rd off s = failsWith s (.outOfBounds s.session.pc (effectiveAddress s.session rn off) .load) ∧
    storeWord ws rn rd off s = failsWith s (.outOfBounds s.session.pc (effectiveAddress s.session rn off) .store) :=
  ⟨loadWord_error h (Session.memReadWord_outside h4 hi _) _, storeWord_error h (Session.memWriteWord_outside h4 hi _) _⟩

/-- Settles O31: the alignment check of a word transfer, in both offset forms. -/
theorem misalignedTransferFails : Obligations.MisalignedTransferFails := by
  intro cond p u w rn rd imm12 shift rm s hn hd
  exact ⟨fun h4 => wordTransfers_misaligned (pc_notMem_transferImm hn hd imm12) h4 _ _,
    fun hm h4 => wordTransfers_misaligned (pc_notMem_transferReg hn hd hm) h4 _ _⟩

/-- Settles O32: the bounds check follows the alignment check of a word access, and is a byte access's only check. -/
theorem outOfBoundsTransferFails : Obligations.OutOfBoundsTransferFails := by
  intro cond p u w rn rd imm12 shift rm s hn hd
  have refused (a : Word) (n : Nat) := (s.session.cfg.not_inImage_iff a n).mpr
  refine ⟨fun h4 ho => ?wordImm, fun ho => ?byteImm, fun hm h4 ho => ?wordReg, fun hm ho => ?byteReg⟩
  case wordImm => exact wordTransfers_outside (pc_notMem_transferImm hn hd imm12) h4 (refused _ _ ho) _ _
  case byteImm =>
    exact loadByte_error (pc_notMem_transferImm hn hd imm12) (Session.memReadByte_outside (refused _ _ ho) _) _
  case wordReg => exact wordTransfers_outside (pc_notMem_transferReg hn hd hm) h4 (refused _ _ ho) _ _
  case byteReg =>
    exact loadByte_error (pc_notMem_transferReg hn hd hm) (Session.memReadByte_outside (refused _ _ ho) _) _

/-! ### What a later access sees of a completed store -/

/-- A session with the memory and the parameters of a completed store reads the stored word at its address, with any
access kind (R48, R53). -/
theorem storeWord_memReadWord {w : Word} {rn rd : RegNum} {off : Offset} {s : State} {t later : Session}
    (hm : Memory.wf s.session.mem) (hr : s.status = .running)
    (h : storeWord w rn rd off s = .next { s with session := t }) (hmem : later.mem = t.mem) (hcfg : later.cfg = t.cfg)
    (k : Access) : later.memReadWord k (effectiveAddress s.session rn off) = .ok (s.session.reg rd) := by
  obtain ⟨_, h4, hi, rfl⟩ := storeWord_completed hr h
  rw [Session.memReadWord_ok h4 (hcfg ▸ hi), hmem, Session.complete_mem, Memory.readWord_writeWord hm]

/-- Byte `k` of a stored word is bits `8k+7 : 8k` of the register (R38, R48). -/
theorem storeWord_memReadByte {w : Word} {rn rd : RegNum} {off : Offset} {s : State} {t : Session}
    (hm : Memory.wf s.session.mem) (hr : s.status = .running)
    (h : storeWord w rn rd off s = .next { s with session := t }) {k : Nat} (hk : k < 4) (acc : Access) :
    t.memReadByte acc (effectiveAddress s.session rn off + BitVec.ofNat 32 k) =
      .ok (((s.session.reg rd).extractLsb' (8 * k) 8).setWidth 32) := by
  obtain ⟨_, h4, ⟨hlo, hhi⟩, ht⟩ := storeWord_completed hr h
  have hcfg : t.cfg = s.session.cfg := ht ▸ rfl
  have hmem : t.mem = s.session.mem.writeWord (effectiveAddress s.session rn off).toNat (s.session.reg rd) := ht ▸ rfl
  have hk32 : (BitVec.ofNat 32 k).toNat = k := Nat.mod_eq_of_lt (by omega)
  have hea : (effectiveAddress s.session rn off + BitVec.ofNat 32 k).toNat =
      (effectiveAddress s.session rn off).toNat + k := by
    rw [BitVec.toNat_add, hk32]
    exact Nat.mod_eq_of_lt (by omega)
  have hin : t.cfg.InImage (effectiveAddress s.session rn off + BitVec.ofNat 32 k) 1 := by
    rw [hcfg, SessionConfig.InImage, hea]
    omega
  rw [Session.memReadByte_ok hin, hea, hmem, Memory.read_writeWord_byte hm _ _ hk]

/-- Settles O35: the word and each byte of a completed store, in both offset forms. -/
theorem loadAfterStore : Obligations.LoadAfterStore := by
  intro cond p u w rn rd imm12 shift rm s t hm hr
  exact ⟨fun h => ⟨storeWord_memReadWord hm hr h rfl rfl _, fun _ hk => storeWord_memReadByte hm hr h hk _⟩,
    fun h => ⟨storeWord_memReadWord hm hr h rfl rfl _, fun _ hk => storeWord_memReadByte hm hr h hk _⟩⟩

/-- Settles O36: a fetch is a word read at the program counter. -/
theorem storedWordIsFetched : Obligations.StoredWordIsFetched := by
  intro cond p u w rn rd imm12 shift rm s t hm hr
  refine ⟨fun h later hmem hcfg hpc => ?_, fun h later hmem hcfg hpc => ?_⟩ <;> rw [Session.fetch, hpc]
  · exact storeWord_memReadWord hm hr h hmem hcfg _
  · exact storeWord_memReadWord hm hr h hmem hcfg _

/-! ### What an instruction leaves of memory -/

/-- An instruction's answer leaves memory as it was. -/
def KeepsMemory (s : State) (o : Host.Outcome State Fault Refusal) : Prop :=
  ∀ t, o = .next t → t.session.mem = s.session.mem

theorem keepsMemory_ok {s : State} {u : Session} (h : u.mem = s.session.mem) : KeepsMemory s (finish s (.ok u)) := by
  rintro t ⟨⟩
  exact h

/-- A fault changes nothing but the status (R134). -/
theorem keepsMemory_error (s : State) (f : StepFault) : KeepsMemory s (finish s (.error f)) := by
  rintro t ⟨⟩
  rfl

/-- The `r15` check in front of a handler writes no memory. -/
theorem keepsMemory_guardPc {s : State} {w : Word} {named : List RegNum} {go : Except StepFault Session}
    (h : KeepsMemory s (finish s go)) : KeepsMemory s (finish s (s.session.guardPc w named go)) := by
  rcases s.session.guardPc_cases w named go with ⟨_, e⟩ | ⟨_, e⟩ <;> rw [e]
  · exact keepsMemory_error s _
  · exact h

theorem keepsMemory_branch (c : Cond) (link : Bool) (imm24 : BitVec 24) (s : State) :
    KeepsMemory s (branch c link imm24 s) := by
  by_cases h : condHolds s.session.flags c = true
  · rw [branch_taken h]; exact keepsMemory_ok (by simp)
  · rw [branch_not_taken h]; exact keepsMemory_ok rfl

/-- A load writes its destination and no memory, whatever memory answers. -/
theorem keepsMemory_load (s : State) (rd : RegNum) (read : Except StepFault Word) :
    KeepsMemory s (finish s (s.session.completeLoad rd read)) := by
  cases read with
  | error f => exact keepsMemory_error s f
  | ok v => exact keepsMemory_ok rfl

/-- A store leaves every byte outside its word as it was, completed or not (R39, R128). -/
theorem storeWord_read_outside {w : Word} {rn rd : RegNum} {off : Offset} {s t : State}
    (h : storeWord w rn rd off s = .next t) :
    MemoryKeptOutsideWord (effectiveAddress s.session rn off).toNat s.session t.session := by
  intro addr ho
  by_cases hg : RegNum.pc ∈ rn :: rd :: off.regs
  · rw [storeWord, Session.guardPc_pos hg] at h
    cases h
    rfl
  rw [storeWord_eq hg] at h
  rcases s.session.memWriteWord_cases (effectiveAddress s.session rn off) (s.session.reg rd) with
    ⟨_, e⟩ | ⟨_, _, e⟩ | ⟨_, _, e⟩ <;> rw [e] at h <;> cases h
  · rfl
  · rfl
  · exact Memory.read_writeWord_outside s.session.mem _ ho

/-- Every instruction keeps memory, or is one of the two forms of `str` (R48). -/
theorem exec_keepsMemory_or_str (i : Instr) (s : State) :
    KeepsMemory s (exec i s) ∨
    (∃ cond p u w rn rd imm12, i = .strImm cond p u w rn rd imm12) ∨
    (∃ cond p u w rn rd shift rm, i = .strReg cond p u w rn rd shift rm) := by
  cases i
  case strImm => exact .inr (.inl ⟨_, _, _, _, _, _, _, rfl⟩)
  case strReg => exact .inr (.inr ⟨_, _, _, _, _, _, _, _, rfl⟩)
  all_goals left
  case beq | bne | blt | bgt | bleq | blne | bllt | blgt => exact keepsMemory_branch _ _ _ s
  case bx | mul => exact keepsMemory_guardPc (keepsMemory_ok rfl)
  case subImm | addImm | movImm | cmpImm => exact keepsMemory_guardPc (keepsMemory_ok rfl)
  case subReg | addReg | movReg | cmpReg => exact keepsMemory_guardPc (keepsMemory_ok rfl)
  case ldrImm | ldrReg | ldrbImm | ldrbReg => exact keepsMemory_guardPc (keepsMemory_load s _ _)
  case branchUnsupported | strbUnsupported | unknown100 | unknown11 => exact keepsMemory_error s _
  all_goals exact keepsMemory_ok rfl

/-- Settles O37: an instruction after which a byte differs is a `str`, and the byte is not outside its word. -/
theorem onlyStrWritesMemory : Obligations.OnlyStrWritesMemory := by
  intro i s t addr h hne
  have inside {ea : Word} (kept : MemoryKeptOutsideWord ea.toNat s.session t.session) :
      ea.toNat ≤ addr ∧ addr < ea.toNat + 4 := by
    by_contra hout
    exact hne (kept addr (by omega))
  rcases exec_keepsMemory_or_str i s with kept | ⟨cond, p, u, w, rn, rd, imm12, rfl⟩ |
    ⟨cond, p, u, w, rn, rd, shift, rm, rfl⟩
  · exact absurd (by rw [kept t h]) hne
  · obtain ⟨hlo, hhi⟩ := inside (storeWord_read_outside h)
    exact ⟨cond, p, u, w, rn, rd, _, hlo, hhi, .inl ⟨imm12, rfl, rfl⟩⟩
  · obtain ⟨hlo, hhi⟩ := inside (storeWord_read_outside h)
    exact ⟨cond, p, u, w, rn, rd, _, hlo, hhi, .inr ⟨shift, rm, rfl, rfl⟩⟩

end Sys2Proof.Machine
end

section
/-! SUPPORT. The checks of construction (spec/70_reset_and_hazards.md R152): what a refusal says. -/

namespace Sys2Proof.Machine

/-- The parameter a refusal names breaks its constraint (R152). -/
def Params.Breaks (p : Params) : ConfigReason → Prop
  | .cacheSize => ¬ PowerOfTwo p.cacheSize
  | .stackSize => p.stackSize % 4 ≠ 0
  | .imageBase => p.imageBase % 4 ≠ 0 ∨ p.imageBase = 0
  | .imageEnd => p.config.imageEnd > 2 ^ 32

/-- A refusal of construction names a broken parameter, whichever of several it is (R141, R152). -/
theorem construct_error {p : Params} {r : ConfigReason} (h : construct p = .error r) : p.Breaks r := by
  unfold construct at h
  split_ifs at h with h1 h2 h3 h4 <;> cases h <;> assumption

/-- IMAGE_END in the parameters of construction (R37). -/
theorem Params.imageEnd_eq (p : Params) :
    p.config.imageEnd = p.imageBase + 4 * ((p.code.length + 3) / 4) + p.stackSize :=
  (Nat.add_assoc _ _ _).symm

/-- Settles O51: the four checks, read off an accepted session and off a refusal. -/
theorem constructionChecksParameters : Obligations.ConstructionChecksParameters := by
  intro p
  simp only [← p.imageEnd_eq, ← powerOfTwo_iff]
  refine ⟨?_, construct_error, construct_error, construct_error, construct_error⟩
  simp only [construct_ok_iff, exists_and_left, exists_eq, and_true, and_assoc]

end Sys2Proof.Machine
end

section
/-! SUPPORT. The instruction-cache model alone (spec/20_memory.md R53 to R58): its logarithm, one access, and runs of
accesses. -/

namespace Sys2Proof.Machine

/-! ### The logarithm -/

/-- With enough fuel the count is the first number of shifts that reaches 1 (R54). -/
theorem shiftsToOne_first (fuel n : Nat) (h1 : 1 ≤ n) (hf : n ≤ fuel) :
    n >>> shiftsToOne fuel n = 1 ∧ ∀ j, j < shiftsToOne fuel n → n >>> j ≠ 1 := by
  induction fuel generalizing n with
  | zero => omega
  | succ fuel ih =>
    by_cases hn : n ≤ 1
    · rw [shiftsToOne, if_pos hn]
      exact ⟨Nat.le_antisymm hn h1, by omega⟩
    · have half : n >>> 1 = n / 2 := Nat.shiftRight_eq_div_pow n 1
      obtain ⟨reached, first⟩ := ih (n >>> 1) (by omega) (by omega)
      rw [shiftsToOne, if_neg hn]
      refine ⟨by rw [Nat.add_comm, Nat.shiftRight_add, reached], fun j hj => ?_⟩
      cases j with
      | zero => exact fun e => hn (Nat.le_of_eq e)
      | succ j =>
        rw [Nat.add_comm, Nat.shiftRight_add]
        exact first j (by omega)

/-- Settles O56: the size itself is fuel enough, and an index below one slot is 0. -/
theorem cacheLogCountsShifts : Obligations.CacheLogCountsShifts :=
  ⟨fun n h => shiftsToOne_first n n h le_rfl, cacheLog2_pow, cacheLog2_pow 0,
    fun a => Nat.lt_one_iff.mp (slotIndex_lt le_rfl a)⟩

/-! ### One access -/

/-- Settles O57: each field after an access, by whether the slot held the tag, and the formulas of R53. -/
theorem cacheAccessFillsSlot : Obligations.CacheAccessFillsSlot := by
  refine ⟨fun c a h => ?_, fun k a => ⟨slotIndex_pow k a, slotTag_pow_toNat k a⟩⟩
  have hit := c.hit_iff a
  refine ⟨slotIndex_lt h a, c.access_size a, c.access_requests a, hit, fun present => ?present,
    fun absent => ?absent, fun ⟨slot, hs, hv⟩ => ?invalid, ?filled, fun j hj => ?others⟩
  case present =>
    have hh := hit.mpr present
    exact ⟨by rw [c.access_hits, if_pos hh], by rw [c.access_misses, if_pos hh]⟩
  case absent =>
    have hh := mt hit.mp absent
    exact ⟨by rw [c.access_hits, if_neg hh], by rw [c.access_misses, if_neg hh]⟩
  case invalid =>
    have hh : ¬ c.hit a = true := fun hh => by
      obtain ⟨slot', hs', hv', _⟩ := hit.mp hh
      cases hs.symm.trans hs'
      cases hv.symm.trans hv'
    rw [c.access_misses, if_neg hh]
  case filled => rw [c.access_slots_getElem? a h, if_pos rfl]
  case others => rw [c.access_slots_getElem? a h, if_neg hj]

/-- An address that was just accessed hits. -/
theorem ICache.hit_access_self {c : ICache} (h : 1 ≤ c.size) (a : Word) : (c.access a).hit a = true := by
  rw [c.hit_access a a h, if_pos rfl]
  exact beq_self_eq_true _

/-- After an access an address of the same slot with another tag misses. -/
theorem ICache.not_hit_access_of_tag_ne {c : ICache} (h : 1 ≤ c.size) {a b : Word}
    (hs : slotIndex c.size a = slotIndex c.size b) (ht : slotTag c.size a ≠ slotTag c.size b) :
    ¬ (c.access a).hit b = true := by
  rw [c.hit_access a b h, if_pos hs.symm, beq_iff_eq]
  exact ht

/-! ### Runs of accesses -/

/-- Accesses to other slots do not change whether an address hits. -/
theorem ICache.hit_accessAll_of_other_slots {c : ICache} (h : 1 ≤ c.size) {a : Word} {others : List Word}
    (ho : ∀ b ∈ others, slotIndex c.size b ≠ slotIndex c.size a) : (c.accessAll others).hit a = c.hit a := by
  induction others generalizing c with
  | nil => rfl
  | cons b others ih =>
    obtain ⟨hb, ho⟩ := List.forall_mem_cons.mp ho
    calc ((c.access b).accessAll others).hit a
        = (c.access b).hit a := ih (by rwa [access_size]) (by rwa [access_size])
      _ = c.hit a := by rw [c.hit_access b a h, if_neg hb.symm]

/-- Settles O58: the address hits right after its access, and accesses to other slots keep it so. -/
theorem repeatedFetchHits : Obligations.RepeatedFetchHits := by
  intro c a others h ho
  rw [ICache.hit_accessAll_of_other_slots (by rwa [c.access_size]) (by rwa [c.access_size])]
  exact ICache.hit_access_self h a

/-- Settles O59, by induction on the number of accesses: each one takes the slot from the address that comes next. -/
theorem alternatingFetchesMiss : Obligations.AlternatingFetchesMiss := by
  intro c a b n h hs ht
  induction n generalizing c a b with
  | zero => exact ⟨rfl, rfl⟩
  | succ n ih =>
    have miss := ICache.not_hit_access_of_tag_ne h hs ht
    obtain ⟨misses, hits⟩ := ih (c.access a) b a (by rwa [c.access_size]) (by rw [c.access_size, hs])
      (by rw [c.access_size]; exact ht.symm)
    rw [alternating, ICache.accessAll_cons, misses, hits, (c.access a).access_misses, (c.access a).access_hits,
      if_neg miss, if_neg miss]
    exact ⟨by omega, rfl⟩

/-- Settles O60: slot and tag are the remainder and the quotient of the word index, so together they are the address. -/
theorem tagTellsAlignedAddresses : Obligations.TagTellsAlignedAddresses := by
  intro k a b ha hb hs
  refine ⟨fun ht => ?_, fun e => e ▸ rfl⟩
  rw [slotIndex_pow, slotIndex_pow] at hs
  have hq : a.toNat / 4 / 2 ^ k = b.toNat / 4 / 2 ^ k := by
    rw [← slotTag_pow_toNat, ← slotTag_pow_toNat, ht]
  have hword : a.toNat / 4 = b.toNat / 4 := by
    rw [← Nat.div_add_mod (a.toNat / 4) (2 ^ k), ← Nat.div_add_mod (b.toNat / 4) (2 ^ k), hq, hs]
  exact BitVec.eq_of_toNat_eq (by omega)

end Sys2Proof.Machine
end

section
/-! SUPPORT. The encoding (spec/30_encoding.md R59 to R71): the class of a word by its bits, the decoder and the encoder
as inverses of each other, and the fields each format reads. -/

namespace Sys2Proof

/-! ### The class of a word, by its bits (R62, R63) -/

theorem classify_eq_branchExchange_iff (w : Word) :
    classify w = .branchExchange ↔ w.extractLsb' 4 24 = 0x12FFF1#24 := by
  simp only [classify_toNat, ← BitVec.toNat_inj, field_toNat, BitVec.toNat_ofNat]
  split_ifs <;> simp <;> omega

theorem classify_eq_branch_iff (w : Word) : classify w = .branch ↔ w.extractLsb' 25 3 = 0b101#3 := by
  simp only [classify_toNat, ← BitVec.toNat_inj, field_toNat, BitVec.toNat_ofNat]
  split_ifs <;> simp <;> omega

theorem classify_eq_multiply_iff (w : Word) :
    classify w = .multiply ↔ w.extractLsb' 22 6 = 0#6 ∧ w.extractLsb' 4 4 = 0b1001#4 := by
  simp only [classify_toNat, ← BitVec.toNat_inj, field_toNat, BitVec.toNat_ofNat]
  split_ifs <;> simp <;> omega

theorem classify_eq_dataProcessing_iff (w : Word) :
    classify w = .dataProcessing ↔
      w.extractLsb' 26 2 = 0b00#2 ∧ w.extractLsb' 4 24 ≠ 0x12FFF1#24 ∧
        ¬ (w.extractLsb' 22 6 = 0#6 ∧ w.extractLsb' 4 4 = 0b1001#4) := by
  simp only [classify_toNat, ne_eq, ← BitVec.toNat_inj, field_toNat, BitVec.toNat_ofNat]
  split_ifs <;> simp <;> omega

theorem classify_eq_singleDataTransfer_iff (w : Word) :
    classify w = .singleDataTransfer ↔ w.extractLsb' 26 2 = 0b01#2 := by
  simp only [classify_toNat, ← BitVec.toNat_inj, field_toNat, BitVec.toNat_ofNat]
  split_ifs <;> simp <;> omega

theorem classify_eq_unknown_iff (w : Word) :
    classify w = .unknown ↔ w.extractLsb' 25 3 = 0b100#3 ∨ w.extractLsb' 26 2 = 0b11#2 := by
  simp only [classify_toNat, ← BitVec.toNat_inj, field_toNat, BitVec.toNat_ofNat]
  split_ifs <;> simp <;> omega

/-- Settles O4: each clause from the bits of the class it names. -/
theorem unknownClassExact : Obligations.UnknownClassExact := by
  intro w
  refine ⟨classify_eq_unknown_iff w, fun h => ?bx, fun h => ?mul, (classify_eq_branch_iff w).mpr,
    (classify_eq_singleDataTransfer_iff w).mpr⟩
  case bx =>
    have := (classify_eq_branchExchange_iff w).mp h
    simp only [← BitVec.toNat_inj, field_toNat, BitVec.toNat_ofNat] at this ⊢
    omega
  case mul =>
    have := ((classify_eq_multiply_iff w).mp h).1
    simp only [← BitVec.toNat_inj, field_toNat, BitVec.toNat_ofNat] at this ⊢
    omega

/-! ### The decoder, by class -/

section

variable {w : Word}

theorem decodeWord_of_branchExchange (h : classify w = .branchExchange) :
    decodeWord w = .bx (condField w) (w.extractLsb' 0 4) := by
  rw [decodeWord, h]

theorem decodeWord_of_branch (h : classify w = .branch) : decodeWord w = decodeBranch w := by
  rw [decodeWord, h]

theorem decodeWord_of_multiply (h : classify w = .multiply) : decodeWord w = decodeMultiply w := by
  rw [decodeWord, h]

theorem decodeWord_of_dataProcessing (h : classify w = .dataProcessing) : decodeWord w = decodeDataProcessing w := by
  rw [decodeWord, h]

theorem decodeWord_of_singleDataTransfer (h : classify w = .singleDataTransfer) : decodeWord w = decodeTransfer w := by
  rw [decodeWord, h]

theorem decodeWord_of_unknown (h : classify w = .unknown) : decodeWord w = decodeUnknown w := by
  rw [decodeWord, h]

end

/-! ### Decoding an encoding -/

/-- The word of a well-formed instruction is of the class of its row: one lemma per row, put together. -/
theorem classify_encode {i : Instr} (h : i.wf = true) : classify (encode i) = i.cls := by
  revert h
  open Laws.ClassOfWord in
  cases i with
  | bx => exact bx _ _
  | beq | bne | blt | bgt | bleq | blne | bllt | blgt | branchUnsupported => exact fun _ => classify_branchWord _ _ _
  | mul => exact mul _ _ _ _ _ _
  | subImm => exact subImm _ _ _ _ _ _
  | subReg => exact subReg _ _ _ _ _ _
  | addImm => exact addImm _ _ _ _ _ _
  | addReg => exact addReg _ _ _ _ _ _
  | cmpImm => exact cmpImm _ _ _ _ _ _
  | cmpReg => exact cmpReg _ _ _ _ _ _
  | movImm => exact movImm _ _ _ _ _ _
  | movReg => exact movReg _ _ _ _ _ _
  | noopAnd => exact noopAnd _ _ _ _ _ _
  | noopEor => exact noopEor _ _ _ _ _ _
  | noopRsb => exact noopRsb _ _ _ _ _ _
  | noopAdc => exact noopAdc _ _ _ _ _ _
  | noopSbc => exact noopSbc _ _ _ _ _ _
  | noopRsc => exact noopRsc _ _ _ _ _ _
  | noopTst => exact noopTst _ _ _ _ _ _
  | noopTeq => exact noopTeq _ _ _ _ _ _
  | noopCmn => exact noopCmn _ _ _ _ _ _
  | noopOrr => exact noopOrr _ _ _ _ _ _
  | noopBic => exact noopBic _ _ _ _ _ _
  | noopMvn => exact noopMvn _ _ _ _ _ _
  | ldrImm | ldrReg | ldrbImm | ldrbReg | strImm | strReg | strbUnsupported =>
    exact fun _ => classify_transferWord _ _ _ _ _ _ _ _ _ _
  | unknown100 => exact unknown100 _ _
  | unknown11 => exact unknown11 _ _

/-- The fields of a branch-exchange word (R64). -/
theorem bxWord_fields (cond : BitVec 4) (rm : RegNum) :
    let w := encode (.bx cond rm)
    w.extractLsb' 28 4 = cond ∧ w.extractLsb' 0 4 = rm := by
  have := cond.isLt; have := rm.isLt
  constructor <;> apply BitVec.eq_of_toNat_eq <;> simp only [field_toNat, bxWord_toNat] <;> omega

/-- The fields of a multiply word (R66). -/
theorem mulWord_fields (cond : BitVec 4) (acc : BitVec 2) (rd ra rs rm : RegNum) :
    let w := encode (.mul cond acc rd ra rs rm)
    w.extractLsb' 28 4 = cond ∧ w.extractLsb' 20 2 = acc ∧ w.extractLsb' 16 4 = rd ∧ w.extractLsb' 12 4 = ra ∧
      w.extractLsb' 8 4 = rs ∧ w.extractLsb' 0 4 = rm := by
  have := cond.isLt; have := acc.isLt; have := rd.isLt; have := ra.isLt; have := rs.isLt; have := rm.isLt
  refine ⟨?_, ?_, ?_, ?_, ?_, ?_⟩ <;> apply BitVec.eq_of_toNat_eq <;> simp only [field_toNat, mulWord_toNat] <;> omega

/-- The fields of a word of the first Unknown row; bits 27:26 tell the rows apart (R63). -/
theorem unknown100Word_fields (cond : BitVec 4) (rest : BitVec 25) :
    let w := encode (.unknown100 cond rest)
    w.extractLsb' 28 4 = cond ∧ w.extractLsb' 26 2 = 0b10#2 ∧ w.extractLsb' 0 25 = rest := by
  have := cond.isLt; have := rest.isLt
  refine ⟨?_, ?_, ?_⟩ <;> apply BitVec.eq_of_toNat_eq <;>
    simp only [field_toNat, unknown100Word_toNat, BitVec.toNat_ofNat] <;> omega

/-- The fields of a word of the second Unknown row (R63). -/
theorem unknown11Word_fields (cond : BitVec 4) (rest : BitVec 26) :
    let w := encode (.unknown11 cond rest)
    w.extractLsb' 28 4 = cond ∧ w.extractLsb' 26 2 = 0b11#2 ∧ w.extractLsb' 0 26 = rest := by
  have := cond.isLt; have := rest.isLt
  refine ⟨?_, ?_, ?_⟩ <;> apply BitVec.eq_of_toNat_eq <;>
    simp only [field_toNat, unknown11Word_toNat, BitVec.toNat_ofNat] <;> omega

/-- The word of a well-formed instruction decodes to it: its class chooses the format, and every field is read back
from its place. -/
theorem decodeWord_encode {i : Instr} (h : i.wf = true) : decodeWord (encode i) = i := by
  have hc := classify_encode h
  cases i
  case bx => rw [decodeWord_of_branchExchange hc, condField, (bxWord_fields _ _).1, (bxWord_fields _ _).2]
  case mul => rw [decodeWord_of_multiply hc]; simp [decodeMultiply, condField, mulWord_fields]
  case beq | bne | blt | bgt | bleq | blne | bllt | blgt =>
    rw [decodeWord_of_branch hc]
    simp [encode, decodeBranch, condField, branchWord_fields]
  case branchUnsupported cond link imm24 =>
    rw [decodeWord_of_branch hc]
    simp only [Instr.wf, condSupported, Bool.not_eq_true', Bool.or_eq_false_iff, beq_eq_false_iff_ne, ne_eq] at h
    simp [encode, decodeBranch, condField, branchWord_fields, h]
  case subImm | addImm | cmpImm | movImm =>
    rw [decodeWord_of_dataProcessing hc]
    simp [encode, dpImmWord, decodeDataProcessing, condField, dpWord_fields, rotImm_fields]
  case subReg | addReg | cmpReg | movReg =>
    rw [decodeWord_of_dataProcessing hc]
    simp [encode, dpRegWord, decodeDataProcessing, condField, dpWord_fields, shiftReg_fields]
  case ldrImm | ldrbImm | strImm | strbUnsupported =>
    rw [decodeWord_of_singleDataTransfer hc]
    simp [encode, decodeTransfer, condField, transferWord_fields]
  case ldrReg | ldrbReg | strReg =>
    rw [decodeWord_of_singleDataTransfer hc]
    simp [encode, decodeTransfer, condField, transferWord_fields, shiftReg_fields]
  case unknown100 =>
    rw [decodeWord_of_unknown hc]
    simp [decodeUnknown, condField, unknown100Word_fields]
  case unknown11 =>
    rw [decodeWord_of_unknown hc]
    simp [decodeUnknown, condField, unknown11Word_fields]
  all_goals
    rw [decodeWord_of_dataProcessing hc]
    simp [encode, decodeDataProcessing, condField, dpWord_fields]

/-- Settles O2: through the words by `decodeWord_encode`, and through the bytes because they spell the word again. -/
theorem decodeOfEncode : Obligations.DecodeOfEncode :=
  fun _ h => ⟨decodeWord_encode h, fun rest => by rw [decode_wordBytes, decodeWord_encode h]⟩

/-! ### Encoding a decoding -/

section

variable {w : Word}

/-- A word of the branch-exchange pattern is the BranchExchange format of its own fields (R64). -/
theorem bxWord_of_fields (h : w.extractLsb' 4 24 = 0x12FFF1#24) :
    encode (.bx (w.extractLsb' 28 4) (w.extractLsb' 0 4)) = w := by
  simp (disch := rfl) only [encode, ← h, BitVec.extractLsb'_append_extractLsb'_eq_extractLsb']
  exact BitVec.extractLsb'_eq_self

/-- A word of the branch space is the Branch format of its own fields (R65). -/
theorem branchWord_of_fields (h : w.extractLsb' 25 3 = 0b101#3) :
    branchWord (w.extractLsb' 28 4) (w.extractLsb' 24 1) (w.extractLsb' 0 24) = w := by
  simp (disch := rfl) only [branchWord, ← h, BitVec.extractLsb'_append_extractLsb'_eq_extractLsb']
  exact BitVec.extractLsb'_eq_self

/-- A word of the multiply pattern is the Multiply format of its own fields (R66). -/
theorem mulWord_of_fields (h : w.extractLsb' 22 6 = 0b000000#6) (h' : w.extractLsb' 4 4 = 0b1001#4) :
    encode (.mul (w.extractLsb' 28 4) (w.extractLsb' 20 2) (w.extractLsb' 16 4) (w.extractLsb' 12 4)
      (w.extractLsb' 8 4) (w.extractLsb' 0 4)) = w := by
  simp (disch := rfl) only [encode, ← h, ← h', BitVec.extractLsb'_append_extractLsb'_eq_extractLsb']
  exact BitVec.extractLsb'_eq_self

/-- A word of the data-processing space is the DataProcessing format of its own fields (R67). -/
theorem dpWord_of_fields (h : w.extractLsb' 26 2 = 0b00#2) :
    dpWord (w.extractLsb' 28 4) (w.extractLsb' 25 1) (w.extractLsb' 21 4) (w.extractLsb' 20 1) (w.extractLsb' 16 4)
      (w.extractLsb' 12 4) (w.extractLsb' 0 12) = w := by
  simp (disch := rfl) only [dpWord, ← h, BitVec.extractLsb'_append_extractLsb'_eq_extractLsb']
  exact BitVec.extractLsb'_eq_self

/-- A word of the transfer space is the SingleDataTransfer format of its own fields (R69). -/
theorem transferWord_of_fields (h : w.extractLsb' 26 2 = 0b01#2) :
    transferWord (w.extractLsb' 28 4) (w.extractLsb' 25 1) (w.extractLsb' 24 1) (w.extractLsb' 23 1)
      (w.extractLsb' 22 1) (w.extractLsb' 21 1) (w.extractLsb' 20 1) (w.extractLsb' 16 4) (w.extractLsb' 12 4)
      (w.extractLsb' 0 12) = w := by
  simp (disch := rfl) only [transferWord, ← h, BitVec.extractLsb'_append_extractLsb'_eq_extractLsb']
  exact BitVec.extractLsb'_eq_self

/-- A word of the first Unknown row is put together from its own fields (R63). -/
theorem unknown100Word_of_fields (h : w.extractLsb' 25 3 = 0b100#3) :
    encode (.unknown100 (w.extractLsb' 28 4) (w.extractLsb' 0 25)) = w := by
  simp (disch := rfl) only [encode, ← h, BitVec.extractLsb'_append_extractLsb'_eq_extractLsb']
  exact BitVec.extractLsb'_eq_self

/-- A word of the second Unknown row is put together from its own fields (R63). -/
theorem unknown11Word_of_fields (h : w.extractLsb' 26 2 = 0b11#2) :
    encode (.unknown11 (w.extractLsb' 28 4) (w.extractLsb' 0 26)) = w := by
  simp (disch := rfl) only [encode, ← h, BitVec.extractLsb'_append_extractLsb'_eq_extractLsb']
  exact BitVec.extractLsb'_eq_self

/-- The twelve low bits are their rotate and immediate parts side by side. -/
theorem rotImm_of_fields (w : Word) : w.extractLsb' 8 4 ++ w.extractLsb' 0 8 = w.extractLsb' 0 12 :=
  BitVec.extractLsb'_append_extractLsb'_eq_extractLsb' rfl

/-- The twelve low bits are their shift and register parts side by side. -/
theorem shiftReg_of_fields (w : Word) : w.extractLsb' 4 8 ++ w.extractLsb' 0 4 = w.extractLsb' 0 12 :=
  BitVec.extractLsb'_append_extractLsb'_eq_extractLsb' rfl

/-- The opcode field is one of sixteen numbers. -/
theorem exists_opcode (w : Word) : ∃ k < 16, w.extractLsb' 21 4 = BitVec.ofNat 4 k :=
  ⟨_, (w.extractLsb' 21 4).isLt, by rw [BitVec.ofNat_toNat, BitVec.setWidth_eq]⟩

theorem encode_decodeBranch (h : w.extractLsb' 25 3 = 0b101#3) : encode (decodeBranch w) = w := by
  have e := branchWord_of_fields h
  rcases BitVec.eq_zero_or_eq_one (w.extractLsb' 24 1) with hl | hl
  all_goals
    rw [hl] at e
    simp only [decodeBranch, condField, hl, reduceIte, BitVec.reduceEq]
    split_ifs with hc hc hc hc
    case neg => exact e
    all_goals rwa [hc] at e

theorem encode_decodeDataProcessing (h : w.extractLsb' 26 2 = 0b00#2) : encode (decodeDataProcessing w) = w := by
  have e := dpWord_of_fields h
  obtain ⟨op, hlt, hop⟩ := exists_opcode w
  rcases BitVec.eq_zero_or_eq_one (w.extractLsb' 25 1) with hi | hi <;> rw [hi, hop] at e
  all_goals
    interval_cases op <;>
      simpa [decodeDataProcessing, condField, hi, hop, encode, dpImmWord, dpRegWord, rotImm_of_fields,
        shiftReg_of_fields] using e

theorem encode_decodeTransfer (h : w.extractLsb' 26 2 = 0b01#2) : encode (decodeTransfer w) = w := by
  have e := transferWord_of_fields h
  rcases BitVec.eq_zero_or_eq_one (w.extractLsb' 22 1) with hb | hb <;>
    rcases BitVec.eq_zero_or_eq_one (w.extractLsb' 20 1) with hl | hl <;>
    rcases BitVec.eq_zero_or_eq_one (w.extractLsb' 25 1) with hi | hi
  all_goals
    rw [hb, hl, hi] at e
    simpa [decodeTransfer, condField, hb, hl, hi, encode, shiftReg_of_fields] using e

theorem encode_decodeUnknown (h : w.extractLsb' 25 3 = 0b100#3 ∨ w.extractLsb' 26 2 = 0b11#2) :
    encode (decodeUnknown w) = w := by
  unfold decodeUnknown
  split_ifs with h11
  · exact unknown11Word_of_fields h11
  · exact unknown100Word_of_fields (h.resolve_right h11)

/-- Every word is the encoding of what it decodes to: each class's format is put together again from its fields. -/
theorem encode_decodeWord (w : Word) : encode (decodeWord w) = w := by
  cases hc : classify w with
  | branchExchange =>
    rw [decodeWord_of_branchExchange hc]
    exact bxWord_of_fields ((classify_eq_branchExchange_iff w).mp hc)
  | branch =>
    rw [decodeWord_of_branch hc]
    exact encode_decodeBranch ((classify_eq_branch_iff w).mp hc)
  | multiply =>
    rw [decodeWord_of_multiply hc]
    obtain ⟨h, h'⟩ := (classify_eq_multiply_iff w).mp hc
    exact mulWord_of_fields h h'
  | dataProcessing =>
    rw [decodeWord_of_dataProcessing hc]
    exact encode_decodeDataProcessing ((classify_eq_dataProcessing_iff w).mp hc).1
  | singleDataTransfer =>
    rw [decodeWord_of_singleDataTransfer hc]
    exact encode_decodeTransfer ((classify_eq_singleDataTransfer_iff w).mp hc)
  | unknown =>
    rw [decodeWord_of_unknown hc]
    exact encode_decodeUnknown ((classify_eq_unknown_iff w).mp hc)

/-- A data-processing word of opcode 0000 or 0001 does not spell a multiply (R62, R63). -/
theorem looksMultiply_of_dataProcessing (h : classify w = .dataProcessing)
    (hop : w.extractLsb' 21 4 = 0b0000#4 ∨ w.extractLsb' 21 4 = 0b0001#4) :
    looksMultiply (w.extractLsb' 25 1) (w.extractLsb' 0 12) = false := by
  have h := (classify_eq_dataProcessing_iff w).mp h
  simp only [looksMultiply, Bool.and_eq_false_iff, beq_eq_false_iff_ne, ne_eq, ← BitVec.toNat_inj, field_toNat,
    BitVec.toNat_ofNat] at h hop ⊢
  omega

/-- A data-processing word of opcode 1001 does not spell a branch-exchange (R62, R63). -/
theorem looksBranchExchange_of_dataProcessing (h : classify w = .dataProcessing)
    (hop : w.extractLsb' 21 4 = 0b1001#4) :
    looksBranchExchange (w.extractLsb' 25 1) (w.extractLsb' 20 1) (w.extractLsb' 16 4) (w.extractLsb' 12 4)
      (w.extractLsb' 0 12) = false := by
  have h := (classify_eq_dataProcessing_iff w).mp h
  simp only [looksBranchExchange, Bool.and_eq_false_iff, beq_eq_false_iff_ne, ne_eq, ← BitVec.toNat_inj, field_toNat,
    BitVec.toNat_ofNat] at h hop ⊢
  omega

theorem decodeDataProcessing_wf (h : classify w = .dataProcessing) : (decodeDataProcessing w).wf = true := by
  have hm := looksMultiply_of_dataProcessing h
  have hb := looksBranchExchange_of_dataProcessing h
  obtain ⟨op, hlt, hop⟩ := exists_opcode w
  rw [hop] at hm hb
  rcases BitVec.eq_zero_or_eq_one (w.extractLsb' 25 1) with hi | hi
  all_goals
    rw [hi] at hm hb
    interval_cases op <;> simp [decodeDataProcessing, hi, hop, Instr.wf, hm, hb]

/-- A branch word under one of the four conditions is one of the eight branches, and otherwise the unsupported one. -/
theorem decodeBranch_wf (w : Word) : (decodeBranch w).wf = true := by
  rcases BitVec.eq_zero_or_eq_one (w.extractLsb' 24 1) with hl | hl
  all_goals
    simp only [decodeBranch, hl, reduceIte, BitVec.reduceEq]
    split_ifs with heq hne hlt hgt
    case neg => simp [Instr.wf, condSupported, heq, hne, hlt, hgt]
    all_goals rfl

theorem decodeTransfer_wf (w : Word) : (decodeTransfer w).wf = true := by
  unfold decodeTransfer
  dsimp only
  split_ifs <;> rfl

theorem decodeUnknown_wf (w : Word) : (decodeUnknown w).wf = true := by
  unfold decodeUnknown
  split_ifs <;> rfl

theorem decodeWord_wf (w : Word) : (decodeWord w).wf = true := by
  cases hc : classify w with
  | branchExchange => rw [decodeWord_of_branchExchange hc]; rfl
  | branch => rw [decodeWord_of_branch hc]; exact decodeBranch_wf w
  | multiply => rw [decodeWord_of_multiply hc]; rfl
  | dataProcessing => rw [decodeWord_of_dataProcessing hc]; exact decodeDataProcessing_wf hc
  | singleDataTransfer => rw [decodeWord_of_singleDataTransfer hc]; exact decodeTransfer_wf w
  | unknown => rw [decodeWord_of_unknown hc]; exact decodeUnknown_wf w

end

/-- Settles O3: well-formedness and the encoding, class by class. -/
theorem encodeOfDecode : Obligations.EncodeOfDecode :=
  fun w => ⟨decodeWord_wf w, encode_decodeWord w⟩

/-! ### The fields of each format -/

open Machine in
/-- Settles O5: the pattern of each clause is the pattern of its class. -/
theorem branchAndMultiplyFieldsRead : Obligations.BranchAndMultiplyFieldsRead := by
  intro w
  refine ⟨fun h => ?bx, fun h h' => ?mul, fun c link h hl hc => ?branch, fun h hc => ?unsupported⟩
  case bx => exact decodeWord_of_branchExchange ((classify_eq_branchExchange_iff w).mpr h)
  case mul => exact decodeWord_of_multiply ((classify_eq_multiply_iff w).mpr ⟨h, h'⟩)
  case branch =>
    rw [decodeWord_of_branch ((classify_eq_branch_iff w).mpr h)]
    cases c <;> cases link <;> simp [decodeBranch, condField, hl, hc, branchInstr]
  case unsupported =>
    rw [decodeWord_of_branch ((classify_eq_branch_iff w).mpr h)]
    simp only [List.mem_cons, List.not_mem_nil, or_false, not_or] at hc
    obtain ⟨heq, hne, hlt, hgt⟩ := hc
    simp [decodeBranch, condField, heq, hne, hlt, hgt]

/-- The four modelled opcodes lie outside the branch-exchange and multiply patterns (R62, R63, R68). -/
theorem classify_of_modelled_opcode {w : Word} (h : w.extractLsb' 26 2 = 0b00#2)
    (hop : w.extractLsb' 21 4 ∈ [0b0010#4, 0b0100#4, 0b1010#4, 0b1101#4]) : classify w = .dataProcessing := by
  rw [classify_eq_dataProcessing_iff]
  simp only [List.mem_cons, List.not_mem_nil, or_false, ne_eq, ← BitVec.toNat_inj, field_toNat,
    BitVec.toNat_ofNat] at h hop ⊢
  omega

open Machine in
/-- Settles O6: the modelled opcodes in both forms, and the twelve others one by one. -/
theorem dataProcessingFieldsRead : Obligations.DataProcessingFieldsRead := by
  intro w h
  refine ⟨fun hi => ?imm, fun hi => ?reg, fun hc hop => ?noop⟩
  case imm | reg =>
    refine ⟨?_, ?_, ?_, ?_⟩
    all_goals
      intro hop
      rw [decodeWord_of_dataProcessing (classify_of_modelled_opcode h (by simp [hop]))]
      simp [decodeDataProcessing, condField, hi, hop]
  case noop =>
    rw [decodeWord_of_dataProcessing hc]
    obtain ⟨op, hlt, e⟩ := exists_opcode w
    rw [e] at hop
    interval_cases op <;> simp_all [decodeDataProcessing, condField, noopInstrs]

/-- Settles O7: the three bits B, L and I choose the row. -/
theorem transferFieldsRead : Obligations.TransferFieldsRead := by
  intro w h
  have e := decodeWord_of_singleDataTransfer ((classify_eq_singleDataTransfer_iff w).mpr h)
  refine ⟨fun hb hl => ?ldr, fun hb hl => ?ldrb, fun hb hl => ?str, fun hb hl => ?strb⟩
  case strb => simp [e, decodeTransfer, condField, hb, hl]
  all_goals constructor <;> intro hi <;> simp [e, decodeTransfer, condField, hb, hl, hi]

/-- Settles O1: the decoder run on each word. -/
theorem sampleWordsDecode : Obligations.SampleWordsDecode :=
  ⟨rfl, rfl, rfl, rfl, rfl, rfl, rfl, rfl, rfl, rfl, rfl, rfl, rfl, rfl, rfl, rfl, rfl⟩

end Sys2Proof
end

section
/-! SUPPORT. The condition field changes nothing outside the branch class but the raw word of a fault record (R60, R93,
R138). -/

namespace Sys2Proof

/-! ### Words that differ in the condition field -/

/-- The instruction with another condition field; a branch is left as it is. -/
def Instr.withCond (c : BitVec 4) : Instr → Instr
  | .bx _ rm => .bx c rm
  | .mul _ acc rd ra rs rm => .mul c acc rd ra rs rm
  | .subImm _ sb rn rd rot imm8 => .subImm c sb rn rd rot imm8
  | .subReg _ sb rn rd shift rm => .subReg c sb rn rd shift rm
  | .addImm _ sb rn rd rot imm8 => .addImm c sb rn rd rot imm8
  | .addReg _ sb rn rd shift rm => .addReg c sb rn rd shift rm
  | .cmpImm _ sb rn rd rot imm8 => .cmpImm c sb rn rd rot imm8
  | .cmpReg _ sb rn rd shift rm => .cmpReg c sb rn rd shift rm
  | .movImm _ sb rn rd rot imm8 => .movImm c sb rn rd rot imm8
  | .movReg _ sb rn rd shift rm => .movReg c sb rn rd shift rm
  | .noopAnd _ i sb rn rd op2 => .noopAnd c i sb rn rd op2
  | .noopEor _ i sb rn rd op2 => .noopEor c i sb rn rd op2
  | .noopRsb _ i sb rn rd op2 => .noopRsb c i sb rn rd op2
  | .noopAdc _ i sb rn rd op2 => .noopAdc c i sb rn rd op2
  | .noopSbc _ i sb rn rd op2 => .noopSbc c i sb rn rd op2
  | .noopRsc _ i sb rn rd op2 => .noopRsc c i sb rn rd op2
  | .noopTst _ i sb rn rd op2 => .noopTst c i sb rn rd op2
  | .noopTeq _ i sb rn rd op2 => .noopTeq c i sb rn rd op2
  | .noopCmn _ i sb rn rd op2 => .noopCmn c i sb rn rd op2
  | .noopOrr _ i sb rn rd op2 => .noopOrr c i sb rn rd op2
  | .noopBic _ i sb rn rd op2 => .noopBic c i sb rn rd op2
  | .noopMvn _ i sb rn rd op2 => .noopMvn c i sb rn rd op2
  | .ldrImm _ p u w rn rd imm12 => .ldrImm c p u w rn rd imm12
  | .ldrReg _ p u w rn rd shift rm => .ldrReg c p u w rn rd shift rm
  | .ldrbImm _ p u w rn rd imm12 => .ldrbImm c p u w rn rd imm12
  | .ldrbReg _ p u w rn rd shift rm => .ldrbReg c p u w rn rd shift rm
  | .strImm _ p u w rn rd imm12 => .strImm c p u w rn rd imm12
  | .strReg _ p u w rn rd shift rm => .strReg c p u w rn rd shift rm
  | .strbUnsupported _ i p u w rn rd offset => .strbUnsupported c i p u w rn rd offset
  | .unknown100 _ rest => .unknown100 c rest
  | .unknown11 _ rest => .unknown11 c rest
  | i => i

section

variable {w w' : Word}

/-- Words that agree on their low 28 bits agree on every field there. -/
theorem field_eq_of_low28 (h : w.extractLsb' 0 28 = w'.extractLsb' 0 28) {lo len : Nat} (hle : lo + len ≤ 28) :
    w.extractLsb' lo len = w'.extractLsb' lo len := by
  rw [← BitVec.extractLsb'_extractLsb'_of_le hle, h, BitVec.extractLsb'_extractLsb'_of_le hle]

/-- No pattern of the classification reads the condition field (R62). -/
theorem classify_eq_of_low28 (h : w.extractLsb' 0 28 = w'.extractLsb' 0 28) : classify w = classify w' := by
  simp (disch := decide) only [classify, field_eq_of_low28 h]

/-- Two data-processing words differ in the copied condition alone, whatever the opcode and the operand form (R96). -/
theorem decodeDataProcessing_withCond (h : w.extractLsb' 0 28 = w'.extractLsb' 0 28) :
    (decodeDataProcessing w).withCond (condField w') = decodeDataProcessing w' := by
  obtain ⟨op, hlt, hop⟩ := exists_opcode w'
  rcases BitVec.eq_zero_or_eq_one (w'.extractLsb' 25 1) with hi | hi
  all_goals
    interval_cases op <;>
      simp (disch := decide) [decodeDataProcessing, field_eq_of_low28 h, hi, hop, Instr.withCond]

theorem decodeTransfer_withCond (h : w.extractLsb' 0 28 = w'.extractLsb' 0 28) :
    (decodeTransfer w).withCond (condField w') = decodeTransfer w' := by
  simp (disch := decide) only [decodeTransfer, field_eq_of_low28 h]
  split_ifs <;> rfl

theorem decodeUnknown_withCond (h : w.extractLsb' 0 28 = w'.extractLsb' 0 28) :
    (decodeUnknown w).withCond (condField w') = decodeUnknown w' := by
  simp (disch := decide) only [decodeUnknown, field_eq_of_low28 h]
  split_ifs <;> rfl

/-- Outside the branch class, words that agree on their low 28 bits decode to instructions that differ in the condition
field alone: the decoder copies it. -/
theorem decodeWord_withCond (h : w.extractLsb' 0 28 = w'.extractLsb' 0 28) (hb : classify w ≠ .branch) :
    (decodeWord w).withCond (condField w') = decodeWord w' := by
  have hc := classify_eq_of_low28 h
  cases hw : classify w <;> rw [hw] at hc hb
  case branch => exact absurd rfl hb
  case branchExchange =>
    rw [decodeWord_of_branchExchange hw, decodeWord_of_branchExchange hc.symm, field_eq_of_low28 h (by decide)]
    rfl
  case multiply =>
    rw [decodeWord_of_multiply hw, decodeWord_of_multiply hc.symm]
    simp (disch := decide) only [decodeMultiply, field_eq_of_low28 h]
    rfl
  case dataProcessing =>
    rw [decodeWord_of_dataProcessing hw, decodeWord_of_dataProcessing hc.symm, decodeDataProcessing_withCond h]
  case singleDataTransfer =>
    rw [decodeWord_of_singleDataTransfer hw, decodeWord_of_singleDataTransfer hc.symm, decodeTransfer_withCond h]
  case unknown => rw [decodeWord_of_unknown hw, decodeWord_of_unknown hc.symm, decodeUnknown_withCond h]

end

end Sys2Proof

namespace Sys2Proof.Machine

/-! ### What their instructions do -/

/-- Two answers from `s`, the first to the word `w` and the second to `w'`, differ in that raw word alone: both complete
one more instruction with the same session, or both take the same fault, each with its own word. -/
def SameButWord (s : State) (w w' : Word) (o o' : Host.Outcome State Fault Refusal) : Prop :=
  (∃ t, o = .next { s with session := t } ∧ t.completed = s.session.completed + 1 ∧ o' = o) ∨
  (∃ f, o = failsWith s f ∧ f.withWord w = f ∧ o' = failsWith s (f.withWord w'))

/-- A completion over a session that has completed no more than `s`. -/
theorem sameButWord_complete (s : State) (w w' : Word) {u : Session} (k : Counter) (next : Word)
    (h : u.completed = s.session.completed) :
    SameButWord s w w' (finish s (.ok (u.complete k next))) (finish s (.ok (u.complete k next))) :=
  .inl ⟨_, rfl, by rw [Session.completed_complete, h], rfl⟩

/-- The fault of an unsupported form carries the raw word (R138). -/
theorem sameButWord_unsupported (s : State) (w w' : Word) (reason : UnsupportedReason) :
    SameButWord s w w' (finish s (.error (s.session.unsupported w reason)))
      (finish s (.error (s.session.unsupported w' reason))) :=
  .inr ⟨_, rfl, rfl, rfl⟩

/-- The fault of an Unknown word carries the raw word (R136). -/
theorem sameButWord_unknownWord (s : State) (w w' : Word) : SameButWord s w w' (unknownWord w s) (unknownWord w' s) :=
  .inr ⟨_, rfl, rfl, rfl⟩

/-- The `r15` check tells two words apart by nothing but the record. -/
theorem sameButWord_guardPc {s : State} {w w' : Word} {named : List RegNum} {go : Except StepFault Session}
    (h : SameButWord s w w' (finish s go) (finish s go)) :
    SameButWord s w w' (finish s (s.session.guardPc w named go)) (finish s (s.session.guardPc w' named go)) := by
  by_cases hn : RegNum.pc ∈ named
  · rw [Session.guardPc_pos hn, Session.guardPc_pos hn]; exact sameButWord_unsupported s w w' _
  · rw [Session.guardPc_neg hn, Session.guardPc_neg hn]; exact h

/-- A word load fails, if it does, with a fault that has no raw word (R137, R140). -/
theorem sameButWord_loadWord (s : State) (w w' : Word) (rn rd : RegNum) (off : Offset) :
    SameButWord s w w' (loadWord w rn rd off s) (loadWord w' rn rd off s) := by
  refine sameButWord_guardPc ?_
  rcases s.session.memReadWord_cases .load (effectiveAddress s.session rn off) with
    ⟨_, e⟩ | ⟨_, _, e⟩ | ⟨_, _, e⟩ <;> rw [e]
  · exact .inr ⟨_, rfl, rfl, rfl⟩
  · exact .inr ⟨_, rfl, rfl, rfl⟩
  · exact sameButWord_complete s w w' _ _ rfl

theorem sameButWord_loadByte (s : State) (w w' : Word) (rn rd : RegNum) (off : Offset) :
    SameButWord s w w' (loadByte w rn rd off s) (loadByte w' rn rd off s) := by
  refine sameButWord_guardPc ?_
  rcases s.session.memReadByte_cases .load (effectiveAddress s.session rn off) with ⟨_, e⟩ | ⟨_, e⟩ <;> rw [e]
  · exact .inr ⟨_, rfl, rfl, rfl⟩
  · exact sameButWord_complete s w w' _ _ rfl

theorem sameButWord_storeWord (s : State) (w w' : Word) (rn rd : RegNum) (off : Offset) :
    SameButWord s w w' (storeWord w rn rd off s) (storeWord w' rn rd off s) := by
  refine sameButWord_guardPc ?_
  rcases s.session.memWriteWord_cases (effectiveAddress s.session rn off) (s.session.reg rd) with
    ⟨_, e⟩ | ⟨_, _, e⟩ | ⟨_, _, e⟩ <;> rw [e]
  · exact .inr ⟨_, rfl, rfl, rfl⟩
  · exact .inr ⟨_, rfl, rfl, rfl⟩
  · exact sameButWord_complete s w w' _ _ rfl

/-- An instruction that is no branch evaluates its condition field nowhere: with another one it does the same, but for
the raw word of a fault (R60, R93). -/
theorem exec_withCond (s : State) (c : BitVec 4) {i : Instr} (hb : i.cls ≠ .branch) :
    SameButWord s (encode i) (encode (i.withCond c)) (exec i s) (exec (i.withCond c) s) := by
  cases i
  case beq | bne | blt | bgt | bleq | blne | bllt | blgt | branchUnsupported => exact absurd rfl hb
  case bx | mul => exact sameButWord_guardPc (sameButWord_complete s _ _ _ _ rfl)
  case subImm | addImm | cmpImm | movImm => exact sameButWord_guardPc (sameButWord_complete s _ _ _ _ rfl)
  case subReg | addReg | cmpReg | movReg => exact sameButWord_guardPc (sameButWord_complete s _ _ _ _ rfl)
  case ldrImm | ldrReg => exact sameButWord_loadWord s _ _ _ _ _
  case ldrbImm | ldrbReg => exact sameButWord_loadByte s _ _ _ _ _
  case strImm | strReg => exact sameButWord_storeWord s _ _ _ _ _
  case strbUnsupported => exact sameButWord_unsupported s _ _ _
  case unknown100 | unknown11 => exact sameButWord_unknownWord s _ _
  all_goals exact sameButWord_complete s _ _ _ _ rfl

/-- Words of the same low 28 bits outside the branch class do the same, but for the raw word of a fault. -/
theorem exec_decodeWord_of_low28 {w w' : Word} (h : w.extractLsb' 0 28 = w'.extractLsb' 0 28)
    (hb : classify w ≠ .branch) (s : State) :
    SameButWord s w w' (exec (decodeWord w) s) (exec (decodeWord w') s) := by
  have hcls : (decodeWord w).cls ≠ .branch := by
    rwa [← classify_encode (decodeWord_wf w), encode_decodeWord]
  have e := exec_withCond s (condField w') hcls
  rwa [decodeWord_withCond h hb, encode_decodeWord, encode_decodeWord] at e

/-- From a running session a fault is no completion: it ends the session (R144). -/
theorem failsWith_ne_of_running {s : State} (hr : s.status = .running) (f : StepFault) (t : Session) :
    failsWith s f ≠ .next { s with session := t } := by
  intro e
  simp [failsWith, hr] at e

/-- A completion is no fault, from whatever session: a fault completes nothing (R134). -/
theorem completion_ne_failsWith {s : State} {t : Session} (h : t.completed = s.session.completed + 1) (f : StepFault) :
    .next { s with session := t } ≠ failsWith s f := by
  intro e
  simp only [failsWith, Host.Outcome.next.injEq, State.mk.injEq] at e
  rw [e.1] at h
  omega

/-- The fault of a failing answer is the one it names. -/
theorem failsWith_inj {s : State} {f g : StepFault} (h : failsWith s f = failsWith s g) : f = g := by
  simp only [failsWith, Host.Outcome.next.injEq, State.mk.injEq, Status.failed.injEq, FaultRecord.mk.injEq] at h
  exact h.2.1

/-- Settles O41: the two words' instructions differ in the condition field alone, which no meaning outside the branch
class reads. -/
theorem conditionFieldIgnoredOutsideBranches : Obligations.ConditionFieldIgnoredOutsideBranches := by
  intro w w' h hb
  refine ⟨(classify_eq_of_low28 h).symm, fun s => ?_⟩
  rcases exec_decodeWord_of_low28 h hb s with ⟨u, e, hu, e'⟩ | ⟨g, e, hg, e'⟩ <;> rw [e'] <;> rw [e]
  · exact ⟨fun _ _ ht => ht, fun f hf => absurd hf (completion_ne_failsWith hu f)⟩
  · refine ⟨fun t hr ht => absurd ht (failsWith_ne_of_running hr g t), fun f hf => ?_⟩
    obtain rfl := failsWith_inj hf
    exact ⟨hg, rfl⟩

end Sys2Proof.Machine
end

section
/-! SUPPORT. The execution cycle (spec/40_execution_cycle.md R77 to R95): the `r15` check of the handlers, what an
instruction does to the program counter, the checks at the top of a step, and the end of a run. -/

namespace Sys2Proof.Machine

/-! ### Register 15 as an operand or a destination (R90, R91) -/

/-- A handler whose `r15` check finds register 15 fails with `PcOperand`, whatever it would have done next. -/
theorem finish_guardPc_pos {s : State} {named : List RegNum} (h : RegNum.pc ∈ named) (w : Word)
    (go : Except StepFault Session) :
    finish s (s.session.guardPc w named go) =
      failsWith s (.unsupportedAddressingMode s.session.pc w .pcOperand) := by
  rw [Session.guardPc_pos h, finish_error, Session.unsupported]

theorem pc_mem_pair {a b : RegNum} (h : a = RegNum.pc ∨ b = RegNum.pc) : RegNum.pc ∈ [a, b] := by
  rcases h with rfl | rfl <;> simp

theorem pc_mem_triple {a b c : RegNum} (h : a = RegNum.pc ∨ b = RegNum.pc ∨ c = RegNum.pc) :
    RegNum.pc ∈ [a, b, c] := by
  rcases h with rfl | h
  · exact List.mem_cons_self
  · exact List.mem_cons_of_mem _ (pc_mem_pair h)

/-- Settles O16: the fields each clause names are the ones its handler checks before anything else. -/
theorem pcOperandRefusedInComputation : Obligations.PcOperandRefusedInComputation := by
  intro cond sb rn rd rot imm8 shift rm acc ra rs s
  refine ⟨?subAddImm, ?subAddReg, ?cmpImm, ?cmpReg, ?movImm, ?movReg, ?mul, ?bx⟩
  case subAddImm => exact fun h => ⟨finish_guardPc_pos (pc_mem_pair h) _ _, finish_guardPc_pos (pc_mem_pair h) _ _⟩
  case subAddReg => exact fun h => ⟨finish_guardPc_pos (pc_mem_triple h) _ _, finish_guardPc_pos (pc_mem_triple h) _ _⟩
  case cmpImm => exact fun h => finish_guardPc_pos (List.mem_singleton.mpr h.symm) _ _
  case cmpReg => exact fun h => finish_guardPc_pos (pc_mem_pair h) _ _
  case movImm => exact fun h => finish_guardPc_pos (List.mem_singleton.mpr h.symm) _ _
  case movReg => exact fun h => finish_guardPc_pos (pc_mem_pair h) _ _
  case mul =>
    intro h
    have named : RegNum.pc ∈ [rm, rs, rd] := pc_mem_triple (by tauto)
    exact finish_guardPc_pos named _ _
  case bx => exact fun h => finish_guardPc_pos (List.mem_singleton.mpr h.symm) _ _

/-- Settles O30: the `r15` check of a transfer stands before its memory access, so no address is looked at. -/
theorem pcOperandRefusedInTransfer : Obligations.PcOperandRefusedInTransfer := by
  intro cond p u w rn rd imm12 shift rm s
  refine ⟨fun h => ?imm, fun h => ?reg⟩
  case imm =>
    have named := pc_mem_pair h
    exact ⟨finish_guardPc_pos named _ _, finish_guardPc_pos named _ _, finish_guardPc_pos named _ _⟩
  case reg =>
    have named := pc_mem_triple h
    exact ⟨finish_guardPc_pos named _ _, finish_guardPc_pos named _ _, finish_guardPc_pos named _ _⟩

/-! ### Every instruction -/

/-- Settles O39: an answer is a completion, which counts one instruction, or a fault at the program counter. -/
theorem everyInstructionCompletesOrFails : Obligations.EveryInstructionCompletesOrFails := by
  intro i s
  rcases exec_answers i s with ⟨t, e, c⟩ | failed
  · exact .inl ⟨t, e, c.completed⟩
  · exact .inr failed

/-! ### The alignment of the program counter (R82, R116, R120) -/

/-- An instruction's answer leaves an aligned program counter aligned. -/
def KeepsPcAligned (s : State) (o : Host.Outcome State Fault Refusal) : Prop :=
  s.session.pc.toNat % 4 = 0 → ∀ t, o = .next t → t.session.pc.toNat % 4 = 0

/-- A fault leaves the program counter where it is (R134). -/
theorem keepsPcAligned_error (s : State) (f : StepFault) : KeepsPcAligned s (finish s (.error f)) := by
  rintro h0 t ⟨⟩
  exact h0

/-- A completion whose next fetch address is aligned when the program counter is. -/
theorem keepsPcAligned_complete {s : State} {next : Word}
    (h : s.session.pc.toNat % 4 = 0 → next.toNat % 4 = 0) (u : Session) (k : Counter) :
    KeepsPcAligned s (finish s (.ok (u.complete k next))) := by
  rintro h0 t ⟨⟩
  rw [Session.pc_complete]
  exact h h0

theorem add_four_aligned {a : Word} (h : a.toNat % 4 = 0) : (a + 4#32).toNat % 4 = 0 := by
  bv_omega

/-- The byte offset of a branch is a multiple of 4, and so is the 8 added to it (R116). -/
theorem branchTarget_aligned {ia : Word} (h : ia.toNat % 4 = 0) (imm24 : BitVec 24) :
    (branchTarget ia imm24).toNat % 4 = 0 := by
  unfold branchTarget branchOffset
  bv_omega

/-- An instruction that completes at the next address (R82). -/
theorem keepsPcAligned_advance (s : State) (u : Session) (k : Counter) :
    KeepsPcAligned s (finish s (.ok (u.complete k (s.session.pc + 4#32)))) :=
  keepsPcAligned_complete add_four_aligned u k

/-- The `r15` check in front of a handler moves no program counter. -/
theorem keepsPcAligned_guardPc {s : State} {w : Word} {named : List RegNum} {go : Except StepFault Session}
    (h : KeepsPcAligned s (finish s go)) : KeepsPcAligned s (finish s (s.session.guardPc w named go)) := by
  rcases s.session.guardPc_cases w named go with ⟨_, e⟩ | ⟨_, e⟩ <;> rw [e]
  · exact keepsPcAligned_error s _
  · exact h

theorem keepsPcAligned_branch (c : Cond) (link : Bool) (imm24 : BitVec 24) (s : State) :
    KeepsPcAligned s (branch c link imm24 s) := by
  by_cases h : condHolds s.session.flags c = true
  · rw [branch_taken h]; exact keepsPcAligned_complete (branchTarget_aligned · imm24) _ _
  · rw [branch_not_taken h]; exact keepsPcAligned_advance s _ _

/-- A load advances or fails, whatever memory answers. -/
theorem keepsPcAligned_load (s : State) (rd : RegNum) (read : Except StepFault Word) :
    KeepsPcAligned s (finish s (s.session.completeLoad rd read)) := by
  cases read with
  | error f => exact keepsPcAligned_error s f
  | ok v => exact keepsPcAligned_advance s _ _

/-- A store advances or fails, whatever memory answers. -/
theorem keepsPcAligned_store (s : State) (write : Except StepFault Session) :
    KeepsPcAligned s (finish s (completeStore s.session.pc write)) := by
  cases write with
  | error f => exact keepsPcAligned_error s f
  | ok t => exact keepsPcAligned_advance s _ _

/-- Every instruction keeps the alignment of the program counter, or is a `bx` (R140). -/
theorem exec_keepsPcAligned_or_bx (i : Instr) (s : State) :
    KeepsPcAligned s (exec i s) ∨ ∃ cond rm, i = .bx cond rm := by
  cases i
  case bx => exact .inr ⟨_, _, rfl⟩
  all_goals left
  case beq | bne | blt | bgt | bleq | blne | bllt | blgt => exact keepsPcAligned_branch _ _ _ s
  case mul => exact keepsPcAligned_guardPc (keepsPcAligned_advance s _ _)
  case subImm | addImm | cmpImm | movImm => exact keepsPcAligned_guardPc (keepsPcAligned_advance s _ _)
  case subReg | addReg | cmpReg | movReg => exact keepsPcAligned_guardPc (keepsPcAligned_advance s _ _)
  case ldrImm | ldrReg | ldrbImm | ldrbReg => exact keepsPcAligned_guardPc (keepsPcAligned_load s _ _)
  case strImm | strReg => exact keepsPcAligned_guardPc (keepsPcAligned_store s _)
  case branchUnsupported | strbUnsupported | unknown100 | unknown11 => exact keepsPcAligned_error s _
  all_goals exact keepsPcAligned_advance s _ _

/-- A `bx` that moves the program counter moves it to the register it names (R120). -/
theorem execBx_pc {cond : BitVec 4} {rm : RegNum} {s t : State} (h : execBx cond rm s = .next t) :
    t.session.pc = s.session.pc ∨ t.session.pc = s.session.reg rm := by
  by_cases hm : RegNum.pc ∈ [rm]
  · rw [execBx, finish_guardPc_pos hm] at h
    cases h
    exact .inl rfl
  · rw [execBx_ok hm] at h
    cases h
    exact .inr (Session.pc_complete _ _ _)

/-- Settles O25: an instruction that misaligns the program counter is a `bx`, and it did not leave it where it was. -/
theorem onlyBxMisalignsPc : Obligations.OnlyBxMisalignsPc := by
  intro i s t h h0 hne
  rcases exec_keepsPcAligned_or_bx i s with kept | ⟨cond, rm, rfl⟩
  · exact absurd (kept h0 t h) hne
  · have moved : t.session.pc ≠ s.session.pc := fun e => hne (e ▸ h0)
    exact ⟨cond, rm, rfl, (execBx_pc h).resolve_left moved⟩

/-! ### The checks at the top of a step (R84, R86, R87) -/

/-- Settles O43: the sentinel is the first check, and nothing after it halts a session. -/
theorem sentinelHalts : Obligations.SentinelHalts := by
  obtain ⟨_, _, haltedAt, _⟩ := endedSessionTakesNoStep
  intro s hr
  exact ⟨fun h0 => (step_running hr).trans (runningStep_sentinel h0), haltedAt s, step_halted rfl⟩

/-- Settles O44: the ceiling, then the two checks of the fetch, which is a word read at the program counter. -/
theorem stepChecksInOrder : Obligations.StepChecksInOrder := by
  intro s hr h0
  refine ⟨fun hc => ?ceiling, fun hc => ⟨fun h4 => ?misaligned, fun h4 hi => ?outside⟩⟩ <;> rw [step_running hr]
  case ceiling => exact runningStep_ceiling h0 hc
  case misaligned => exact runningStep_fetchFault h0 hc (Session.memReadWord_misaligned h4 .fetch)
  case outside => exact runningStep_fetchFault h0 hc (Session.memReadWord_outside h4 hi .fetch)

/-! ### The instruction of a step (R79, R88) -/

/-- The four bytes at an address decode to the instruction of the word there, and to no other (R38). -/
theorem decode_bytes_eq {m : Memory} {a : Nat} {i : Instr}
    (h : decode [m.read a, m.read (a + 1), m.read (a + 2), m.read (a + 3)] = .ok (i, [])) :
    decodeWord (m.readWord a) = i := by
  cases h
  rfl

/-- Settles O42: the step is the commit of the decoded instruction's execution, which keeps a completion and undoes a
failure. -/
theorem stepRunsDecodedInstruction : Obligations.StepRunsDecodedInstruction := by
  intro s i hr h0 hc h4 hi a m hdec fetched
  have hstep : step s = commit s (exec i fetched) := by
    rw [step_running hr, runningStep_fetches h0 hc (Session.memReadWord_ok h4 hi .fetch), decode_bytes_eq hdec]
    rfl
  refine ⟨fun t e ht => ?completed, fun t r e ht => ?failed⟩ <;> rw [hstep, e]
  case completed => simp only [commit, ht]
  case failed => simp only [commit, ht, next_raise]

/-- Settles O46: of what a step can do, only taking a fault ends in `failed`, and it touches the status alone. -/
theorem failedStepCommitsNothing : Obligations.FailedStepCommitsNothing := by
  intro s t r h ht
  obtain ⟨hr, ⟨_, rfl⟩ | ⟨_, f, hf, rfl⟩ | ⟨_, _, w, u, _, _, _, rfl⟩⟩ := step_cases h
  · cases ht
  · cases ht
    exact ⟨rfl, rfl, hf⟩
  · cases hr.symm.trans ht

/-! ### The end of a run (R78, R86) -/

/-- An ended session's run has ended, whatever steps are left, with the session as it is or as its record holds it. -/
theorem runFor_of_ended {s : State} (h : s.status ≠ .running) (hf : ∀ r, s.status = .failed r → r.state = s.session)
    (n : Nat) : ∃ r, runFor n s = some r ∧ r.session = s.session := by
  rcases hs : s.status with _ | _ | record
  · exact absurd hs h
  · exact ⟨.halted (s.session.reg 0#4) s, by cases n <;> simp only [runFor, hs], rfl⟩
  · exact ⟨.failed record, by cases n <;> simp only [runFor, hs], hf record hs⟩

/-- A running session's run goes on with its next step. -/
theorem runFor_succ_of_step {s t : State} (hr : s.status = .running) (h : step s = .next t) (n : Nat) :
    runFor (n + 1) s = runFor n t := by
  simp only [runFor, hr, h]

/-- What an ended session's run returns has completed no more than the session has. -/
theorem runFor_ends_of_ended {s : State} (hc : s.session.completed ≤ s.session.cfg.maxInsns)
    (hf : ∀ r, s.status = .failed r → r.state = s.session) (h : s.status ≠ .running) (n : Nat) :
    ∃ r, runFor n s = some r ∧ r.session.completed ≤ s.session.cfg.maxInsns := by
  obtain ⟨r, e, hr⟩ := runFor_of_ended h hf n
  exact ⟨r, e, hr ▸ hc⟩

/-- A run with more steps than the ceiling leaves instructions ends, below the ceiling: each step ends the session or
uses up one step and one instruction (R86). -/
theorem runFor_ends (n : Nat) (s : State) (hc : s.session.completed ≤ s.session.cfg.maxInsns)
    (hf : ∀ r, s.status = .failed r → r.state = s.session)
    (hn : s.session.cfg.maxInsns < s.session.completed + n) :
    ∃ r, runFor n s = some r ∧ r.session.completed ≤ s.session.cfg.maxInsns := by
  induction n generalizing s with
  | zero => omega
  | succ n ih =>
    by_cases hr : s.status = .running
    · obtain ⟨t, h⟩ := step_next_of_running hr
      rw [runFor_succ_of_step hr h]
      obtain ⟨_, ⟨_, rfl⟩ | ⟨_, f, _, rfl⟩ | ⟨_, hlt, w, u, _, _, c, rfl⟩⟩ := step_cases h
      · exact runFor_ends_of_ended (s := { s with status := .halted }) hc nofun nofun n
      · exact runFor_ends_of_ended (s := raise s f) hc (by rintro r ⟨⟩; rfl) nofun n
      · have hcfg : u.cfg = s.session.cfg := c.cfg
        have hdone : u.completed = s.session.completed + 1 := c.completed
        have below : u.completed ≤ u.cfg.maxInsns := by rw [hcfg, hdone]; exact hlt
        have fuel : u.cfg.maxInsns < u.completed + n := by rw [hcfg, hdone]; omega
        rw [← hcfg]
        exact ih { s with session := u } below (fun r e => by cases hr.symm.trans e) fuel
    · exact runFor_ends_of_ended hc hf hr (n + 1)

/-- Settles O53: MAX_INSNS + 1 steps are more than the instructions the ceiling leaves to any session. -/
theorem everyRunEnds : Obligations.EveryRunEnds := by
  intro s hc hf
  exact runFor_ends _ s hc hf (by omega)

end Sys2Proof.Machine
end

section
/-! SUPPORT. Data processing (spec/41_data_processing.md R96 to R108): the flags of a comparison in exact integers, and
what each opcode does once its register fields are not 15, for both operand forms at once. -/

namespace Sys2Proof.Machine

/-! ### The flags of a comparison (R103 to R106) -/

/-- The wrapped difference as a number: the exact difference modulo 2^32. -/
theorem sub_toNat_eq_emod (a b : Word) : ((a - b).toNat : Int) = (a.toNat - b.toNat : Int) % 2 ^ 32 := by
  have := b.isLt
  rw [BitVec.toNat_sub]
  omega

theorem cmpFlags_n (a b : Word) : (cmpFlags a b).n = (a - b).msb := rfl

/-- The exact signed difference leaves the 32-bit range exactly when the signed subtraction overflows (R103). -/
theorem cmpFlags_v (a b : Word) : (cmpFlags a b).v = a.ssubOverflow b := by
  simp only [cmpFlags, BitVec.ssubOverflow, ← Bool.decide_or, decide_eq_decide]
  omega

theorem cmpFlags_z_iff (a b : Word) : (cmpFlags a b).z = true ↔ a = b := by
  simp [cmpFlags, BitVec.sub_eq_iff_eq_add]

/-- N is set exactly when the wrapped difference has its sign bit (R103). -/
theorem cmpFlags_n_iff (a b : Word) :
    (cmpFlags a b).n = true ↔ ((a.toNat : Int) - b.toNat) % 2 ^ 32 ≥ 2 ^ 31 := by
  rw [cmpFlags_n, ← sub_toNat_eq_emod, BitVec.msb_eq_true_iff_two_mul_ge]
  omega

/-- V is the sign rule of R106: the operands differ in sign, and the wrapped difference does not have the first one's. -/
theorem cmpFlags_v_iff_msb (a b : Word) :
    (cmpFlags a b).v = true ↔ a.msb ≠ b.msb ∧ (a - b).msb ≠ a.msb := by
  rw [cmpFlags_v, BitVec.ssubOverflow_eq]
  cases a.msb <;> cases b.msb <;> simp

/-- The overflow flag corrects the sign of the wrapped difference: they differ exactly when the first operand is the
lesser as a signed number (R108). -/
theorem cmpFlags_n_ne_v_iff (a b : Word) : (cmpFlags a b).n ≠ (cmpFlags a b).v ↔ a.toInt < b.toInt := by
  have wrapped : (cmpFlags a b).n = true ↔ (a.toInt - b.toInt).bmod (2 ^ 32) < 0 := by
    rw [cmpFlags_n, BitVec.msb_eq_toInt, BitVec.toInt_sub, decide_eq_true_iff]
  have overflow : (cmpFlags a b).v = true ↔ a.toInt - b.toInt > 2 ^ 31 - 1 ∨ a.toInt - b.toInt < -(2 ^ 31) :=
    decide_eq_true_iff
  have := a.toInt_lt
  have := a.le_toInt
  have := b.toInt_lt
  have := b.le_toInt
  rw [Ne, Bool.eq_iff_iff, wrapped, overflow, Int.bmod_def]
  split <;> omega

/-- Settles O17: one clause for each flag, and the sign rule for V. -/
theorem cmpFlagsExact : Obligations.CmpFlagsExact := by
  intro a b
  exact ⟨cmpFlags_n_iff a b, cmpFlags_z_iff a b, decide_eq_true_iff, decide_eq_true_iff, cmpFlags_v_iff_msb a b⟩

/-- Settles O18: Z is equality, and N against V is the signed order, which is total. -/
theorem conditionsAfterCompare : Obligations.ConditionsAfterCompare := by
  intro a b
  have equal := cmpFlags_z_iff a b
  have less := cmpFlags_n_ne_v_iff a b
  simp only [condHolds_iff, CondMeaning]
  refine ⟨equal, ?ne, less, ?gt⟩
  case ne => rw [Ne, ← equal, Bool.not_eq_true]
  case gt =>
    rw [← Bool.not_eq_true, equal, ← not_ne_iff (a := (cmpFlags a b).n), less, ← BitVec.toInt_inj]
    omega

/-! ### What a completed instruction leaves (R96) -/

/-- What `o` answers at `s`: a completion that writes `v` to `rd`, keeps the flags, and advances (R92, R96). -/
def WritesReg (rd : RegNum) (v : Word) (s : State) (o : Host.Outcome State Fault Refusal) : Prop :=
  ∃ t, o = .next { s with session := t } ∧ Computes [rd] s.session t ∧ t.flags = s.session.flags ∧ t.reg rd = v

/-- What `o` answers at `s`: a completion that writes no register, leaves the flags `f`, and advances (R96). -/
def WritesFlags (f : Flags) (s : State) (o : Host.Outcome State Fault Refusal) : Prop :=
  ∃ t, o = .next { s with session := t } ∧ Computes [] s.session t ∧ t.flags = f

/-- Writing one register and completing changes that register, the counter and the program counter. -/
theorem computes_setReg (t : Session) (rd : RegNum) (v : Word) :
    Computes [rd] t ((t.setReg rd v).completeComputation t.pc) := by
  refine ⟨fun r hr => ?_, Session.pc_complete _ _ _, fun _ => rfl, ⟨rfl, rfl⟩, ⟨rfl, rfl, rfl, rfl⟩⟩
  obtain ⟨hpc, hrd⟩ : r ≠ RegNum.pc ∧ r ≠ rd := by simpa using hr
  simp [Session.completeComputation, hpc, hrd]

/-- Writing the flags and completing changes no register but the program counter. -/
theorem computes_withFlags (t : Session) (f : Flags) :
    Computes [] t ({ t with flags := f }.completeComputation t.pc) := by
  refine ⟨fun r hr => ?_, Session.pc_complete _ _ _, fun _ => rfl, ⟨rfl, rfl⟩, ⟨rfl, rfl, rfl, rfl⟩⟩
  rw [List.mem_singleton] at hr
  simp [Session.completeComputation, hr]

/-- The last steps of `sub`, `add` and `mov`; the program counter's own step would undo a write to register 15. -/
theorem writesReg_setReg {rd : RegNum} (hd : rd ≠ RegNum.pc) (v : Word) (s : State) :
    WritesReg rd v s (.next { s with session := (s.session.setReg rd v).completeComputation s.session.pc }) :=
  ⟨_, rfl, computes_setReg _ _ _, rfl, by simp [Session.completeComputation, hd]⟩

/-! ### The shared forms, once their register fields are not 15 (R90, R91, R97 to R101) -/

theorem pc_notMem_cons {r : RegNum} {rs : List RegNum} (hr : r ≠ RegNum.pc) (hrs : RegNum.pc ∉ rs) :
    RegNum.pc ∉ r :: rs :=
  List.not_mem_cons_of_ne_of_not_mem hr.symm hrs

/-- An immediate operand names no register. -/
theorem pc_notMem_imm (imm8 : BitVec 8) : RegNum.pc ∉ (Operand2.imm imm8).regs := List.not_mem_nil

/-- A register operand names that register alone. -/
theorem pc_notMem_reg {rm : RegNum} (hm : rm ≠ RegNum.pc) : RegNum.pc ∉ (Operand2.reg rm).regs :=
  pc_notMem_cons hm List.not_mem_nil

theorem aluSub_writesReg {rn rd : RegNum} {op2 : Operand2} (hn : rn ≠ RegNum.pc) (hd : rd ≠ RegNum.pc)
    (hop : RegNum.pc ∉ op2.regs) (w : Word) (s : State) :
    WritesReg rd (s.session.reg rn - op2.value s.session) s (aluSub w rn rd op2 s) := by
  rw [aluSub_ok (pc_notMem_cons hn (pc_notMem_cons hd hop))]
  exact writesReg_setReg hd _ s

theorem aluAdd_writesReg {rn rd : RegNum} {op2 : Operand2} (hn : rn ≠ RegNum.pc) (hd : rd ≠ RegNum.pc)
    (hop : RegNum.pc ∉ op2.regs) (w : Word) (s : State) :
    WritesReg rd (s.session.reg rn + op2.value s.session) s (aluAdd w rn rd op2 s) := by
  rw [aluAdd_ok (pc_notMem_cons hn (pc_notMem_cons hd hop))]
  exact writesReg_setReg hd _ s

theorem aluMov_writesReg {rd : RegNum} {op2 : Operand2} (hd : rd ≠ RegNum.pc) (hop : RegNum.pc ∉ op2.regs) (w : Word)
    (s : State) : WritesReg rd (op2.value s.session) s (aluMov w rd op2 s) := by
  rw [aluMov_ok (pc_notMem_cons hd hop)]
  exact writesReg_setReg hd _ s

theorem aluCmp_writesFlags {rn : RegNum} {op2 : Operand2} (hn : rn ≠ RegNum.pc) (hop : RegNum.pc ∉ op2.regs) (w : Word)
    (s : State) : WritesFlags (cmpFlags (s.session.reg rn) (op2.value s.session)) s (aluCmp w rn op2 s) := by
  rw [aluCmp_ok (pc_notMem_cons hn hop)]
  exact ⟨_, rfl, computes_withFlags _ _, rfl⟩

/-- A no-op completes with the flags it found: its `r15` check is absent (R101). -/
theorem aluNoop_writesFlags (s : State) : WritesFlags s.session.flags s (aluNoop s) :=
  ⟨_, rfl, computes_withFlags s.session s.session.flags, rfl⟩

/-- The twelve no-op instructions are one meaning, whatever their fields (R101). -/
theorem exec_noop {cond : BitVec 4} {i sb : BitVec 1} {rn rd : RegNum} {op2 : BitVec 12} {instr : Instr}
    (h : instr ∈ noopInstrs cond i sb rn rd op2) (s : State) : exec instr s = aluNoop s := by
  simp only [noopInstrs, List.mem_cons, List.not_mem_nil, or_false] at h
  rcases h with rfl | rfl | rfl | rfl | rfl | rfl | rfl | rfl | rfl | rfl | rfl | rfl <;> rfl

/-! ### The instructions -/

/-- An immediate operand as a number is its field: zero extension keeps it (R72). -/
theorem immValue_toNat (t : Session) (imm8 : BitVec 8) : ((Operand2.imm imm8).value t).toNat = imm8.toNat :=
  BitVec.toNat_setWidth_of_le (by decide)

/-- Settles O8: the difference that `aluSub` writes, as a number, in both operand forms. -/
theorem subWritesDifference : Obligations.SubWritesDifference := by
  refine ⟨fun cond sb rn rd rot imm8 s hn hd => ?_, fun cond sb rn rd shift rm s hn hd hm => ?_⟩
  · obtain ⟨t, e, hc, hf, hv⟩ := aluSub_writesReg hn hd (pc_notMem_imm imm8) _ s
    exact ⟨t, e, hc, hf, by rw [hv, sub_toNat_eq_emod, immValue_toNat]⟩
  · obtain ⟨t, e, hc, hf, hv⟩ := aluSub_writesReg hn hd (pc_notMem_reg hm) _ s
    exact ⟨t, e, hc, hf, hv ▸ sub_toNat_eq_emod _ _⟩

/-- Settles O9: the sum that `aluAdd` writes, as a number, in both operand forms. -/
theorem addWritesSum : Obligations.AddWritesSum := by
  refine ⟨fun cond sb rn rd rot imm8 s hn hd => ?_, fun cond sb rn rd shift rm s hn hd hm => ?_⟩
  · obtain ⟨t, e, hc, hf, hv⟩ := aluAdd_writesReg hn hd (pc_notMem_imm imm8) _ s
    exact ⟨t, e, hc, hf, by rw [hv, BitVec.toNat_add, immValue_toNat]⟩
  · obtain ⟨t, e, hc, hf, hv⟩ := aluAdd_writesReg hn hd (pc_notMem_reg hm) _ s
    exact ⟨t, e, hc, hf, hv ▸ BitVec.toNat_add _ _⟩

/-- Settles O10: `aluMov` does not look at the Rn field, so that field may be 15. -/
theorem movWritesOperand : Obligations.MovWritesOperand := by
  refine ⟨fun cond sb rn rd rot imm8 s hd => ?_, fun cond sb rn rd shift rm s hd hm => ?_⟩
  · obtain ⟨t, e, hc, hf, hv⟩ := aluMov_writesReg hd (pc_notMem_imm imm8) _ s
    exact ⟨t, e, hc, hf, hv ▸ immValue_toNat _ _⟩
  · exact aluMov_writesReg hd (pc_notMem_reg hm) _ s

/-- Settles O11: `aluCmp` does not look at the Rd field, so that field may be 15. -/
theorem cmpWritesFourFlags : Obligations.CmpWritesFourFlags :=
  ⟨fun _ _ _ _ _ imm8 s hn => aluCmp_writesFlags hn (pc_notMem_imm imm8) _ s,
   fun _ _ _ _ _ _ s hn hm => aluCmp_writesFlags hn (pc_notMem_reg hm) _ s⟩

/-- Settles O12: one meaning for all twelve, with no check in front of it. -/
theorem noopsOnlyAdvance : Obligations.NoopsOnlyAdvance := by
  intro cond i sb rn rd op2 s instr h
  rw [exec_noop h]
  exact aluNoop_writesFlags s

end Sys2Proof.Machine
end

section
/-! SUPPORT. Multiplication (spec/42_multiply.md R109 to R113): what `mul` does once its register fields are not 15, and
its product read as unsigned and as signed numbers. -/

namespace Sys2Proof.Machine

/-- The product of words is the exact signed product, wrapped: wrapping is a ring homomorphism (R110). -/
theorem mul_eq_ofInt_mul_toInt (a b : Word) : a * b = BitVec.ofInt 32 (a.toInt * b.toInt) := by
  rw [BitVec.ofInt_mul, BitVec.ofInt_toInt, BitVec.ofInt_toInt]

/-- `mul`, once its register fields are not 15, whatever its ignored fields (R111): the low 32 bits of the product of
two numbers (R109) are, by definition, the product of the two words. -/
theorem execMul_writesReg {rd rs rm : RegNum} (hd : rd ≠ RegNum.pc) (hs : rs ≠ RegNum.pc) (hm : rm ≠ RegNum.pc)
    (cond : BitVec 4) (acc : BitVec 2) (ra : RegNum) (s : State) :
    WritesReg rd (s.session.reg rm * s.session.reg rs) s (execMul cond acc rd ra rs rm s) := by
  rw [execMul_ok (pc_notMem_cons hm (pc_notMem_cons hs (pc_notMem_cons hd List.not_mem_nil)))]
  exact writesReg_setReg hd _ s

/-- Settles O14: the product of words that `mul` writes is the signed product, wrapped. -/
theorem mulServesSignedProduct : Obligations.MulServesSignedProduct := by
  intro cond acc rd ra rs rm s hd hs hm
  obtain ⟨t, e, _, _, hv⟩ := execMul_writesReg hd hs hm cond acc ra s
  exact ⟨t, e, hv.trans (mul_eq_ofInt_mul_toInt _ _)⟩

/-- Settles O13: the product of words that `mul` writes, as an unsigned number. -/
theorem mulWritesLowProduct : Obligations.MulWritesLowProduct := by
  intro cond acc rd ra rs rm s hd hs hm
  obtain ⟨t, e, hc, hf, hv⟩ := execMul_writesReg hd hs hm cond acc ra s
  exact ⟨t, e, hc, hf, hv ▸ BitVec.toNat_mul _ _⟩

/-- Settles O15: the `r15` check is the only way for `mul` to fail. -/
theorem mulCountsOrChangesNothing : Obligations.MulCountsOrChangesNothing := by
  intro cond acc rd ra rs rm s
  by_cases h : RegNum.pc ∈ [rm, rs, rd]
  · exact .inr ⟨_, finish_guardPc_pos h _ _⟩
  · obtain ⟨_, hpc, _, _, hcount⟩ := computes_setReg s.session rd (s.session.reg rm * s.session.reg rs)
    exact .inl ⟨_, execMul_ok h cond acc ra s, hcount, hpc⟩

end Sys2Proof.Machine
end

section
/-! SUPPORT. Branches (spec/43_branch.md R114 to R120): what the shared last steps of a branch leave unchanged, the
branch target in exact integers, and the eight branch instructions by what R114 says of their condition. -/

namespace Sys2Proof.Machine

/-! ### The parts of a branch -/

/-- Completing an instruction writes no register but the program counter (R82). -/
theorem regsKeptBut_complete (t : Session) (k : Counter) (next : Word) :
    RegsKeptBut [RegNum.pc] t (t.complete k next) := by
  intro r hr
  rw [Session.reg_complete, if_neg (List.ne_of_not_mem_cons hr)]

/-- A taken branch writes no register but the program counter and, if it links, `r14` (R117, R118). -/
theorem regsKeptBut_link_complete (t : Session) (link : Bool) (k : Counter) (next : Word) :
    RegsKeptBut [RegNum.pc, RegNum.lr] t ((t.link link).complete k next) := by
  intro r hr
  obtain ⟨hpc, hlr⟩ : r ≠ RegNum.pc ∧ r ≠ RegNum.lr := by simpa using hr
  simp [hpc, hlr]

/-- The jump leaves `r14` as the link write left it (R117). -/
theorem reg_lr_link_complete (t : Session) (link : Bool) (k : Counter) (next : Word) :
    ((t.link link).complete k next).reg RegNum.lr = if link then t.pc + 4#32 else t.reg RegNum.lr := by
  simp

/-- The branch target is the exact sum of R116, wrapped: sign extension keeps the number, and wrapping is a ring
homomorphism. -/
theorem branchTarget_eq_ofInt (ia : Word) (imm24 : BitVec 24) :
    branchTarget ia imm24 = BitVec.ofInt 32 (ia.toNat + imm24.toInt * 4 + 8) := by
  rw [BitVec.ofInt_add, BitVec.ofInt_add, BitVec.ofInt_mul, BitVec.ofInt_natCast, BitVec.ofNat_toNat,
    BitVec.setWidth_eq]
  rfl

/-- The branch target as a number (R116). -/
theorem branchTarget_toNat (ia : Word) (imm24 : BitVec 24) :
    ((branchTarget ia imm24).toNat : Int) = (ia.toNat + imm24.toInt * 4 + 8) % 2 ^ 32 := by
  rw [branchTarget_eq_ofInt, BitVec.toNat_ofInt]
  omega

/-- A branch instruction whose condition holds in the words of R114 links if asked and jumps (R118). -/
theorem exec_branchInstr_taken {c : Cond} {s : State} (h : CondMeaning s.session.flags c) (link : Bool)
    (imm24 : BitVec 24) :
    exec (branchInstr c link imm24) s =
      .next { s with session := (s.session.link link).complete .taken (branchTarget s.session.pc imm24) } := by
  rw [exec_branchInstr, branch_taken ((condHolds_iff _ c).mpr h)]

/-- A branch instruction whose condition does not hold in the words of R114 advances, whatever its link bit (R119). -/
theorem exec_branchInstr_untaken {c : Cond} {s : State} (h : ¬ CondMeaning s.session.flags c) (link : Bool)
    (imm24 : BitVec 24) :
    exec (branchInstr c link imm24) s =
      .next { s with session := s.session.complete .notTaken (s.session.pc + 4#32) } := by
  rw [exec_branchInstr, branch_not_taken (mt (condHolds_iff _ c).mp h)]

/-! ### The instructions -/

/-- Settles O20: the link write and the jump, each by its own frame. -/
theorem takenBranchJumps : Obligations.TakenBranchJumps := by
  intro c link imm24 s h
  refine ⟨_, exec_branchInstr_taken h link imm24, ?target, reg_lr_link_complete _ _ _ _,
    regsKeptBut_link_complete _ _ _ _, Session.link_flags _ _, ?memory, ?rest, ?counters⟩
  case target => rw [Session.pc_complete, branchTarget_toNat]
  case memory => exact fun _ => by rw [Session.complete_mem, Session.link_mem]
  case rest => exact ⟨Session.link_icache _ _, Session.link_cfg _ _⟩
  case counters => simp [CountersGrew, Counters.bump]

/-- Settles O21: an untaken branch is a bare completion at the next address. -/
theorem untakenBranchAdvances : Obligations.UntakenBranchAdvances := by
  intro c link imm24 s h
  exact ⟨_, exec_branchInstr_untaken h link imm24, Session.pc_complete _ _ _, regsKeptBut_complete _ _ _, rfl,
    fun _ => rfl, ⟨rfl, rfl⟩, ⟨rfl, rfl, rfl, rfl⟩⟩

/-- Settles O22: a taken branch writes `r14` by its link bit alone, an untaken one keeps it. -/
theorem linkWrittenWithJump : Obligations.LinkWrittenWithJump := by
  intro c link imm24 s
  by_cases h : CondMeaning s.session.flags c
  · refine ⟨_, exec_branchInstr_taken h link imm24, fun _ linked => ⟨?_, Session.pc_complete _ _ _⟩, fun kept => ?_⟩
    · rw [reg_lr_link_complete, if_pos linked]
    · have unlinked : link = false := kept.resolve_left (not_not.mpr h)
      rw [reg_lr_link_complete, unlinked, if_neg Bool.false_ne_true]
  · exact ⟨_, exec_branchInstr_untaken h link imm24, fun holds => absurd holds h,
      fun _ => regsKeptBut_complete _ _ _ _ (by decide)⟩

/-- Settles O23: the handler of this row raises the fault without reading the flags. -/
theorem unsupportedConditionFails : Obligations.UnsupportedConditionFails := by
  intro cond link imm24 s
  exact finish_error s _

/-- Settles O24: once its field is not 15, `bx` is a bare completion at the register's value. -/
theorem bxJumpsToRegister : Obligations.BxJumpsToRegister := by
  intro cond rm s hm
  exact ⟨_, execBx_ok (pc_notMem_cons hm List.not_mem_nil) cond s, Session.pc_complete _ _ _,
    regsKeptBut_complete _ _ _, rfl, fun _ => rfl, ⟨rfl, rfl⟩, ⟨rfl, rfl, rfl, rfl⟩⟩

end Sys2Proof.Machine
end

section
/-! SUPPORT. Loads and stores (spec/44_load_store.md R123 to R132), the rest: the effective address as a number, the
byte store, and the two ways a transfer can end. -/

namespace Sys2Proof.Machine

/-! ### The two ways a transfer can end (R132) -/

/-- What `o` answers at `s`: a completion that counts one memory instruction and advances, or a fault. -/
def CountsMemoryOrFails (s : State) (o : Host.Outcome State Fault Refusal) : Prop :=
  (∃ t, o = .next { s with session := t } ∧ CountersGrew 0 1 0 0 s.session t ∧ t.pc = s.session.pc + 4#32) ∨
  (∃ f, o = failsWith s f)

theorem countsMemoryOrFails_error (s : State) (f : StepFault) : CountsMemoryOrFails s (finish s (.error f)) :=
  .inr ⟨f, finish_error s f⟩

/-- Whatever an access has changed of a session, its counters kept, a completion counts one memory instruction. -/
theorem countsMemoryOrFails_complete {s : State} {u : Session} (h : u.cnt = s.session.cnt) :
    CountsMemoryOrFails s (finish s (.ok (u.complete .memory (s.session.pc + 4#32)))) := by
  refine .inl ⟨_, finish_ok s _, ?_, Session.pc_complete _ _ _⟩
  rw [CountersGrew, Session.complete_cnt, h]
  exact ⟨rfl, rfl, rfl, rfl⟩

/-- The `r15` check in front of a transfer is one more way to fail. -/
theorem countsMemoryOrFails_guardPc {s : State} {w : Word} {named : List RegNum} {go : Except StepFault Session}
    (h : CountsMemoryOrFails s (finish s go)) : CountsMemoryOrFails s (finish s (s.session.guardPc w named go)) := by
  rcases s.session.guardPc_cases w named go with ⟨_, e⟩ | ⟨_, e⟩ <;> rw [e]
  · exact countsMemoryOrFails_error s _
  · exact h

/-- A load ends as its access does, a word's or a byte's; the destination it writes is no counter. -/
theorem countsMemoryOrFails_load (s : State) (rd : RegNum) (read : Except StepFault Word) :
    CountsMemoryOrFails s (finish s (s.session.completeLoad rd read)) := by
  cases read with
  | error f => exact countsMemoryOrFails_error s f
  | ok v => exact countsMemoryOrFails_complete (Session.setReg_cnt _ _ _)

/-- A store fails in one of its access's two checks, or writes a word to memory, which is no counter. -/
theorem countsMemoryOrFails_storeWord (w : Word) (rn rd : RegNum) (off : Offset) (s : State) :
    CountsMemoryOrFails s (storeWord w rn rd off s) := by
  refine countsMemoryOrFails_guardPc ?_
  rcases s.session.memWriteWord_cases (effectiveAddress s.session rn off) (s.session.reg rd) with
    ⟨_, e⟩ | ⟨_, _, e⟩ | ⟨_, _, e⟩ <;> rw [e]
  · exact countsMemoryOrFails_error s _
  · exact countsMemoryOrFails_error s _
  · exact countsMemoryOrFails_complete rfl

/-- Settles O34: the four loads differ in the access they make and in the offset form, the two stores in the offset
form; neither changes how a transfer can end. -/
theorem transfersCountOrChangeNothing : Obligations.TransfersCountOrChangeNothing := by
  intro cond p u w rn rd imm12 shift rm s
  simp only [List.forall_mem_cons]
  refine ⟨?ldrImm, ?ldrReg, ?ldrbImm, ?ldrbReg, ?strImm, ?strReg, List.forall_mem_nil _⟩
  case ldrImm | ldrReg | ldrbImm | ldrbReg => exact countsMemoryOrFails_guardPc (countsMemoryOrFails_load s _ _)
  case strImm | strReg => exact countsMemoryOrFails_storeWord _ _ _ _ s

/-! ### The effective address and the byte store -/

/-- An immediate offset as a number is its field: zero extension keeps it (R72, R124). -/
theorem offsetImm_toNat (t : Session) (imm12 : BitVec 12) : ((Offset.imm imm12).value t).toNat = imm12.toNat :=
  BitVec.toNat_setWidth_of_le (by decide)

/-- The effective address is the wrapped sum, whatever the offset form (R123). -/
theorem effectiveAddress_toNat (t : Session) (rn : RegNum) (off : Offset) :
    (effectiveAddress t rn off).toNat = ((t.reg rn).toNat + (off.value t).toNat) % 2 ^ 32 :=
  BitVec.toNat_add _ _

/-- Settles O26: the wrapped sum, with the value of each offset form as a number. -/
theorem effectiveAddressWraps : Obligations.EffectiveAddressWraps := by
  intro t rn rm imm12
  refine ⟨?imm, ?reg⟩
  case imm => rw [effectiveAddress_toNat, offsetImm_toNat]
  case reg => exact effectiveAddress_toNat t rn (.reg rm)

/-- Settles O33: the handler of this row raises the fault without looking at a register or an address. -/
theorem byteStoreFails : Obligations.ByteStoreFails := by
  intro cond i p u w rn rd offset s
  exact finish_error s _

end Sys2Proof.Machine
end

section
/-! SUPPORT. The Unknown class (spec/60_exceptions.md R136): what the rows' shared handler answers. -/

namespace Sys2Proof.Machine

/-- The shared handler of the Unknown rows raises its fault at the instruction's own address (R136). -/
theorem unknownWord_eq (w : Word) (s : State) :
    unknownWord w s = failsWith s (.unknownInstruction s.session.pc w) := finish_error s _

/-- Settles O38: each row hands its own encoding to the shared handler. -/
theorem unknownWordFails : Obligations.UnknownWordFails := by
  refine ⟨fun cond rest s => ?unknown100, fun cond rest s => ?unknown11⟩
  case unknown100 => exact unknownWord_eq (encode (.unknown100 cond rest)) s
  case unknown11 => exact unknownWord_eq (encode (.unknown11 cond rest)) s

end Sys2Proof.Machine
end
